-- ==== Sys2Proof/Config.lean ====
section
/-! DEFINITION. The parameters of the block that the spec fixes (00_scope.md R4) or decides (R5).

The two parameters that R5 leaves open, PIPE_DEPTH and RESET_FORM, are absent: no rule of the model reads
either (93_implementation_defined.md U2 and U3; notes/assumptions/5.md).
No command of this block leaves a value undefined (93_implementation_defined.md section 2), so there is no
free value here. -/

namespace Sys2Proof.Config

/-- WORDW: the width of a Word in bits (R4). -/
abbrev wordBits : Nat := 32

/-- WORDBYTES: the bytes of one Word, and so the size of a group (R4, 20_memory.md R35). -/
abbrev wordBytes : Nat := 4

/-- ACCW: the width of each accumulator in bits (R4). -/
abbrev accBits : Nat := 64

/-- NACC: the number of accumulators (R4). -/
abbrev accCount : Nat := 4

/-- RESW: the width of the Result in bits (R4). -/
abbrev resultBits : Nat := 256

/-- OPW: the width of `cmd_op` (R5). -/
abbrev opBits : Nat := 3

/-- DATAW: the width of `cmd_data` (R5). -/
abbrev dataBits : Nat := 64

/-- CWW: the width of the command word (R5). -/
abbrev cmdBits : Nat := 67

end Sys2Proof.Config
end

