-- ==== Sys2Proof/Word.lean ====
section
/-! DEFINITION. The word types of the block (00_scope.md R4, R6; 30_encoding.md R47) and the names of its
four accumulators (10_state.md R11). Every value of this hardware is unsigned (R6). -/

namespace Sys2Proof

/-- One location of the InputBuffer (20_memory.md R30). -/
abbrev Byte := BitVec 8

/-- A Word: a 32-bit unsigned value decoded from four bytes (00_scope.md section 8). -/
abbrev Word := BitVec 32

/-- The content of one accumulator (10_state.md R11). -/
abbrev Acc64 := BitVec 64

/-- A command word, `CW = op, data` (30_encoding.md R47). -/
abbrev CmdWord := BitVec 67

/-- The accumulators by name; their numbers are 0 to 3 in this order (10_state.md R11, 30_encoding.md R57). -/
inductive AccName where
  | a
  | b
  | c
  | d
deriving DecidableEq, Repr

end Sys2Proof
end

