-- ==== Sys2Proof/Syntax.lean ====
section
/-! DEFINITION. The commands of the block: one constructor per row of spec/opcode_table.json
(30_encoding.md R48, R49). -/

namespace Sys2Proof

/-- The five commands. Each operand has the width of its field (30_encoding.md R49), so a term of this type is
always a command of the block: there is no illegal encoding and no reserved operand value (R53). -/
inductive Instr where
  /-- CLR: start a computation (40_init_seed.md R65). -/
  | clr
  /-- PUTB imm8: supply one byte (41_data_ingest.md R77). -/
  | putb (imm8 : Byte)
  /-- PUTW imm32: supply four bytes (41_data_ingest.md R78). -/
  | putw (imm32 : Word)
  /-- END: the input is exhausted (42_finish_result.md R95). -/
  | finish
  /-- LDACC r, imm64: load one accumulator (40_init_seed.md R66). -/
  | ldacc (r : AccName) (imm64 : Acc64)
deriving DecidableEq, Repr

end Sys2Proof
end

