-- ==== Sys2Proof/Decode.lean ====
section
/-! DEFINITION. Decoding and encoding of command words (30_encoding.md R47 to R53, R57, R58), with the opcode map
as rows of mask and match (R48). Decoding is total and reads the command word alone (R51): nothing is rejected,
because every one of the 2^67 words is a command (R53). -/

namespace Sys2Proof

/-- Bits `hi` down to `lo` of a value (00_scope.md R6), given by `lo` and the width. -/
def field {n : Nat} (lo width : Nat) (v : BitVec n) : BitVec width := v.extractLsb' lo width

/-- `op = CW[66:64]` (30_encoding.md R47). -/
def opField (cw : CmdWord) : BitVec 3 := field 64 3 cw

/-- `data = CW[63:0]` (30_encoding.md R47). -/
def dataField (cw : CmdWord) : BitVec 64 := field 0 64 cw

/-- `imm8 = CW[7:0]` (30_encoding.md R49). -/
def imm8Field (cw : CmdWord) : Byte := field 0 8 cw

/-- `imm32 = CW[31:0]` (30_encoding.md R49). -/
def imm32Field (cw : CmdWord) : Word := field 0 32 cw

/-- The register field `r = CW[65:64]` of LDACC (30_encoding.md R49). -/
def regField (cw : CmdWord) : BitVec 2 := field 64 2 cw

/-- The accumulator a 2-bit register number names (30_encoding.md R57). -/
def accOfBits (r : BitVec 2) : AccName :=
  if r = 0 then .a else if r = 1 then .b else if r = 2 then .c else .d

/-- The register number of an accumulator (10_state.md R11, 30_encoding.md R57). -/
def accNumber : AccName → BitVec 2
  | .a => 0
  | .b => 1
  | .c => 2
  | .d => 3

/-- Byte `k` of a PUTW payload, `imm32[8k+7:8k]`; byte 0 has the lowest offset (20_memory.md R33). -/
def laneOf (k : Nat) (imm32 : Word) : Byte := field (8 * k) 8 imm32

/-- The four bytes of a PUTW payload in stream order (20_memory.md R33). -/
def lanes (imm32 : Word) : List Byte := [laneOf 0 imm32, laneOf 1 imm32, laneOf 2 imm32, laneOf 3 imm32]

/-- `decode` of 30_encoding.md R51. -/
def decode (cw : CmdWord) : Instr :=
  if opField cw = 0 then .clr
  else if opField cw = 1 then .putb (imm8Field cw)
  else if opField cw = 2 then .putw (imm32Field cw)
  else if opField cw = 3 then .finish
  else .ldacc (accOfBits (regField cw)) (dataField cw)

/-- The command word with a given operation code and payload (30_encoding.md R47). -/
def cmdWord (op : BitVec 3) (data : BitVec 64) : CmdWord := op ++ data

/-- The canonical encoding: every unused bit is 0 (30_encoding.md R58). -/
def encode : Instr → CmdWord
  | .clr => cmdWord 0 0
  | .putb imm8 => cmdWord 1 (imm8.setWidth 64)
  | .putw imm32 => cmdWord 2 (imm32.setWidth 64)
  | .finish => cmdWord 3 0
  | .ldacc r imm64 => cmdWord (1#1 ++ accNumber r) imm64

/-- The payload bits that a command ignores, marked `u` in 30_encoding.md R49, as a mask over the word. -/
def unusedMask : Instr → CmdWord
  | .clr => 0x0FFFFFFFFFFFFFFFF
  | .putb _ => 0x0FFFFFFFFFFFFFF00
  | .putw _ => 0x0FFFFFFFF00000000
  | .finish => 0x0FFFFFFFFFFFFFFFF
  | .ldacc _ _ => 0

/-- One row of the opcode map: a word is the row's command exactly when `CW AND mask = match`
(30_encoding.md R48). -/
structure OpcodeRow where
  /-- The mnemonic of spec/opcode_table.json. -/
  mnemonic : String
  /-- The bits the row fixes. -/
  mask : CmdWord
  /-- Their values. -/
  value : CmdWord
deriving DecidableEq, Repr

/-- Whether a word is a command of the row (30_encoding.md R48). -/
def matchesRow (row : OpcodeRow) (cw : CmdWord) : Bool := cw &&& row.mask = row.value

/-- The second table of 30_encoding.md R48, row by row. -/
def opcodeRows : List OpcodeRow :=
  [ ⟨"CLR", 0x70000000000000000, 0x00000000000000000⟩,
    ⟨"PUTB", 0x70000000000000000, 0x10000000000000000⟩,
    ⟨"PUTW", 0x70000000000000000, 0x20000000000000000⟩,
    ⟨"END", 0x70000000000000000, 0x30000000000000000⟩,
    ⟨"LDACC", 0x40000000000000000, 0x40000000000000000⟩ ]

/-- The mnemonic of a command (30_encoding.md R48). -/
def mnemonic : Instr → String
  | .clr => "CLR"
  | .putb _ => "PUTB"
  | .putw _ => "PUTW"
  | .finish => "END"
  | .ldacc _ _ => "LDACC"

/-- The command word whose bits are the low `nbits` bits of `w`, numbered as spec/opcode_table.json numbers them;
bits above `nbits` are 0, and the port has wires for the bits 66 to 0 only (DESIGN CHOICE, safe:
notes/assumptions/2.md). -/
def tableWord (nbits w : Nat) : CmdWord := BitVec.ofNat 67 (w % 2 ^ nbits)

/-- The command the decoder reads from a table word. It never refuses (30_encoding.md R53). -/
def decodeTableWord (nbits w : Nat) : Option Instr := some (decode (tableWord nbits w))

end Sys2Proof
end

