-- ==== Sys2Proof/Machine/State.lean ====
section
/-! DEFINITION. The state of the machine as plain data: the six components of the block (10_state.md R10) and,
outside the block, the host's list of events still to come (10_state.md R16, 30_encoding.md R46). -/

namespace Sys2Proof.Machine

/-- The four accumulators A, B, C, D, that is x[0] to x[3] (10_state.md R11). Also a Result and a seed. -/
structure Accs where
  a : Acc64
  b : Acc64
  c : Acc64
  d : Acc64
deriving DecidableEq, Repr

/-- (0, 0, 0, 0), the accumulator at the start of a computation (10_state.md R22). -/
def Accs.zero : Accs := ⟨0, 0, 0, 0⟩

/-- The architectural state of the block: six components and no other (10_state.md R10). -/
structure Block where
  /-- A, B, C, D (R11). -/
  accs : Accs
  /-- The pending bytes of the incomplete group, oldest first (R14). -/
  pend : List Byte
  /-- The done flag (R15). -/
  done : Bool
deriving DecidableEq, Repr

/-- The block after the reset event (10_state.md R22, 70_reset_and_hazards.md R125). -/
def Block.reset : Block := ⟨Accs.zero, [], false⟩

/-- What can happen to the block: the reset event or the acceptance of one command word
(00_scope.md R8, 30_encoding.md R46). -/
inductive Event where
  /-- The reset input is asserted (70_reset_and_hazards.md R125). -/
  | reset
  /-- One command word is accepted (30_encoding.md R46). -/
  | accept (cw : CmdWord)
deriving DecidableEq, Repr

/-- The machine: the block, and the host beside it. `inputs` is the model's own field and no state of the block:
the events the host has still to send, oldest first (10_state.md R16; DESIGN CHOICE, safe:
notes/assumptions/1.md). -/
structure State where
  /-- The architectural state (R10). -/
  block : Block
  /-- The host's remaining events (R16, R134). -/
  inputs : List Event
deriving DecidableEq, Repr

/-- The machine right after reset: every component as 10_state.md R22 gives it, and a host that has sent nothing. -/
def State.reset : State := ⟨Block.reset, []⟩

/-- The faults of the machine. There are none: the set of exception causes is empty and no command can fault, trap
or be refused (60_exceptions.md R110). Nothing raises a fault; safe. -/
inductive Fault where
deriving DecidableEq, Repr

/-- The refusals of the machine. -/
inductive Refusal where
  /-- Raised by `exec` for a command that has no meaning yet; every command has one, so nothing raises it. Safe:
  the machine would stop where the hardware goes on. -/
  | notModelled (mnemonic : String)
deriving DecidableEq, Repr

end Sys2Proof.Machine
end

