-- ==== Sys2Proof/Machine/Flags.lean ====
section
/-! DEFINITION. The one flag, DONE (10_state.md R15). There is no carry, overflow, zero, sign or error flag: the carry
out of every addition is discarded (R17). -/

namespace Sys2Proof.Machine

/-- `DONE <- b` (10_state.md R15). -/
def Block.setDone (bl : Block) (b : Bool) : Block := { bl with done := b }

/-- `if DONE == 0`, the guard of every command but CLR: in the DONE state the command has no effect
(42_finish_result.md R107, R98). -/
def Block.whenRun (bl : Block) (effect : Block → Block) : Block := if bl.done then bl else effect bl

end Sys2Proof.Machine
end

