-- ==== Sys2Proof/WellFormed.lean ====
section
/-! DEFINITION. What is well-formed.

A term of `Instr` carries the width of every operand in its type, so it is always a command (30_encoding.md R53)
and needs no check. Two things can be ill-formed:
 * a command written with plain numbers, whose numbers must fit their fields (30_encoding.md R55): `RawCmd.wf`;
 * a sequence of commands as a computation of a byte sequence, or as several one after another
   (42_finish_result.md R106): `computation?`, `computations?`, and after a reset event `computationsAfterReset?`. -/

namespace Sys2Proof

/-- A command with its operands as plain numbers, as a line of assembly gives them (30_encoding.md R55). -/
inductive RawCmd where
  | clr
  | putb (imm8 : Nat)
  | putw (imm32 : Nat)
  | finish
  | ldacc (r imm64 : Nat)
deriving DecidableEq, Repr

/-- Every number fits its field (30_encoding.md R55, R57). -/
def RawCmd.wf : RawCmd → Bool
  | .clr => true
  | .putb imm8 => imm8 < 2 ^ 8
  | .putw imm32 => imm32 < 2 ^ 32
  | .finish => true
  | .ldacc r imm64 => r < 4 && imm64 < 2 ^ 64

/-- The command of a well-formed `RawCmd`; a number that does not fit is rejected (30_encoding.md R55). -/
def RawCmd.toInstr? (raw : RawCmd) : Option Instr :=
  if raw.wf then
    match raw with
    | .clr => some .clr
    | .putb imm8 => some (.putb (BitVec.ofNat 8 imm8))
    | .putw imm32 => some (.putw (BitVec.ofNat 32 imm32))
    | .finish => some .finish
    | .ldacc r imm64 => some (.ldacc (accOfBits (BitVec.ofNat 2 r)) (BitVec.ofNat 64 imm64))
  else none

/-- The InputBuffer bytes a command carries: only PUTB and PUTW carry any (20_memory.md R30). -/
def bytesOf : Instr → List Byte
  | .clr => []
  | .putb imm8 => [imm8]
  | .putw imm32 => lanes imm32
  | .finish => []
  | .ldacc _ _ => []

/-- Whether a command is a data command (20_memory.md R30). -/
def isData : Instr → Bool
  | .clr => false
  | .putb _ => true
  | .putw _ => true
  | .finish => false
  | .ldacc _ _ => false

/-- The byte sequence carried by a sequence of commands (20_memory.md R31, R34). -/
def streamOf : List Instr → List Byte
  | [] => []
  | i :: rest => bytesOf i ++ streamOf rest

/-- What a well-formed computation is of: its loads and its bytes (42_finish_result.md R106). -/
abbrev SeededInput := List (AccName × Acc64) × List Byte

/-- The LDACC part at the head of a command sequence, and what follows it (42_finish_result.md R106). -/
def splitLoads : List Instr → List (AccName × Acc64) × List Instr
  | .ldacc r imm64 :: rest => ((r, imm64) :: (splitLoads rest).1, (splitLoads rest).2)
  | rest => ([], rest)

/-- The bytes of `(PUTB | PUTW)* ; END`, or nothing for any other sequence (42_finish_result.md R106). -/
def dataThenEnd? : List Instr → Option (List Byte)
  | [.finish] => some []
  | .putb imm8 :: rest => (dataThenEnd? rest).map ([imm8] ++ ·)
  | .putw imm32 :: rest => (dataThenEnd? rest).map (lanes imm32 ++ ·)
  | _ => none

/-- The seed value of one accumulator: what its LDACC gives it, 0 where it has none (42_finish_result.md R106). -/
def seedValue (loads : List (AccName × Acc64)) (r : AccName) : Acc64 := (loads.lookup r).getD 0

/-- The LDACC, data and END part of a well-formed computation: its loads and its bytes. Each register is loaded
at most once (42_finish_result.md R106). -/
def afterClear? (cmds : List Instr) : Option SeededInput :=
  if ((splitLoads cmds).1.map Prod.fst).Nodup then
    (dataThenEnd? (splitLoads cmds).2).map ((splitLoads cmds).1, ·)
  else none

/-- A well-formed computation, `CLR ; LDACC* ; (PUTB | PUTW)* ; END`: its loads and its bytes
(42_finish_result.md R106). -/
def computation? : List Instr → Option SeededInput
  | .clr :: rest => afterClear? rest
  | _ => none

/-- A well-formed computation directly after a reset event, where the leading CLR may be omitted
(42_finish_result.md R106). -/
def computationAfterReset? (cmds : List Instr) : Option SeededInput :=
  match computation? cmds with
  | some comp => some comp
  | none => afterClear? cmds

/-- A command sequence cut after each of its ENDs. What follows the last END, if anything, is a part of its own. -/
def cutAfterEnd : List Instr → List (List Instr)
  | [] => []
  | i :: rest =>
    if i = .finish then [i] :: cutAfterEnd rest
    else
      match cutAfterEnd rest with
      | [] => [[i]]
      | part :: parts => (i :: part) :: parts

/-- The computations of a list of parts, if each part is a well-formed computation. -/
def eachComputation? : List (List Instr) → Option (List SeededInput)
  | [] => some []
  | part :: parts =>
    match computation? part, eachComputation? parts with
    | some comp, some comps => some (comp :: comps)
    | _, _ => none

/-- A well-formed sequence of computations one after another, at least one: each of them, in order. A computation has
one END, its last command, so the sequence is cut after each END (42_finish_result.md R106). -/
def computations? (cmds : List Instr) : Option (List SeededInput) :=
  match cutAfterEnd cmds with
  | [] => none
  | part :: parts => eachComputation? (part :: parts)

/-- The same directly after a reset event: the first computation may omit its CLR, and only the first
(42_finish_result.md R106). -/
def computationsAfterReset? (cmds : List Instr) : Option (List SeededInput) :=
  match cutAfterEnd cmds with
  | [] => none
  | part :: parts =>
    match computationAfterReset? part, eachComputation? parts with
    | some comp, some comps => some (comp :: comps)
    | _, _ => none

end Sys2Proof
end

