-- ==== Sys2Proof/Machine/Operands.lean ====
section
/-! DEFINITION. The operand forms of the commands (30_encoding.md R49, R50): immediates are taken from their fields
unchanged, and a register operand is an accumulator. Decoding the fields themselves is in Decode.lean; the lanes of
a PUTW payload are `laneOf` there too. -/

namespace Sys2Proof.Machine

/-- `x[r]`, the read of an accumulator (00_scope.md R7). -/
def Accs.read (x : Accs) : AccName → Acc64
  | .a => x.a
  | .b => x.b
  | .c => x.c
  | .d => x.d

/-- `x[r] <- v`, the write of an accumulator; the others keep their values (00_scope.md R7, 10_state.md R13). -/
def Accs.write (x : Accs) (r : AccName) (v : Acc64) : Accs :=
  match r with
  | .a => { x with a := v }
  | .b => { x with b := v }
  | .c => { x with c := v }
  | .d => { x with d := v }

/-- The Word of a complete group: `b0` has the lowest offset and is the least significant byte
(20_memory.md R32, 41_data_ingest.md R76). -/
def groupWord (b0 b1 b2 b3 : Byte) : Word := b3 ++ b2 ++ b1 ++ b0

/-- `zext_64(v)`, the one widening of the hardware (30_encoding.md R50, 41_data_ingest.md R75). -/
def zext64 (v : Word) : Acc64 := v.setWidth 64

/-- The seed of a list of loads: each accumulator's value, 0 where it has no load (42_finish_result.md R106). -/
def Accs.ofLoads (loads : List (AccName × Acc64)) : Accs :=
  ⟨seedValue loads .a, seedValue loads .b, seedValue loads .c, seedValue loads .d⟩

end Sys2Proof.Machine
end

