-- ==== Sys2Proof/Machine/Ops.lean ====
section
/-! DEFINITION. The operations that the commands share: ABSORB, PUSHBYTE, starting a computation, the reset event,
taking the host's next event, and what the output ports show.

TAKING AN EXCEPTION: this hardware has none. No command raises anything, nothing is saved, there is no handler and no
return from one (60_exceptions.md R110, R112, R114), so there is no such operation here. -/

namespace Sys2Proof.Machine

/-- ABSORB(v): four 64-bit additions modulo 2^64, in this order, each with the value written by the line before it
(41_data_ingest.md R75). -/
def Accs.absorb (x : Accs) (v : Word) : Accs :=
  let a := x.a + zext64 v
  let b := x.b + a
  let c := x.c + b
  let d := x.d + c
  ⟨a, b, c, d⟩

/-- `pend <- s` (00_scope.md R7). -/
def Block.setPend (bl : Block) (s : List Byte) : Block := { bl with pend := s }

/-- PUSHBYTE(b): the fourth byte of a group completes the Word, which is absorbed at once; any other byte is
appended to `pend` (41_data_ingest.md R76). -/
def Block.pushByte (bl : Block) (b : Byte) : Block :=
  match bl.pend with
  | [p0, p1, p2] => { bl.setPend [] with accs := bl.accs.absorb (groupWord p0 p1 p2 b) }
  | _ => bl.setPend (bl.pend ++ [b])

/-- Four PUSHBYTE, the lane of lowest offset first (41_data_ingest.md R78). -/
def Block.pushWord (bl : Block) (imm32 : Word) : Block :=
  (((bl.pushByte (laneOf 0 imm32)).pushByte (laneOf 1 imm32)).pushByte (laneOf 2 imm32)).pushByte (laneOf 3 imm32)

/-- `x[r] <- v` (40_init_seed.md R66). -/
def Block.loadAcc (bl : Block) (r : AccName) (v : Acc64) : Block := { bl with accs := bl.accs.write r v }

/-- All four accumulators to 0, `pend` emptied, DONE to 0 (40_init_seed.md R65). -/
def Block.clear (bl : Block) : Block := ({ bl with accs := Accs.zero }.setPend []).setDone false

/-- The trailing group is discarded and DONE set (42_finish_result.md R95). -/
def Block.endInput (bl : Block) : Block := (bl.setPend []).setDone true

/-- The same machine with a new block: the host's events are not the block's to change (10_state.md R16). -/
def State.withBlock (s : State) (bl : Block) : State := { s with block := bl }

/-- The reset event (70_reset_and_hazards.md R125): the block takes its reset state, whatever it was. -/
def State.resetEvent (s : State) : State := s.withBlock Block.reset

/-- The next event of the host, and the machine with that event taken from the list; nothing when the host has
no further event (10_state.md R16, 70_reset_and_hazards.md R134). -/
def State.takeInput (s : State) : Option (Event × State) :=
  match s.inputs with
  | [] => none
  | e :: rest => some (e, { s with inputs := rest })

/-- The machine with a command word as the host's next event (30_encoding.md R46). -/
def State.present (s : State) (cw : CmdWord) : State := { s with inputs := .accept cw :: s.inputs }

/-- `obs`: the level of the `done` output, and the Result on the ports res_a to res_d while it is 1. While it is 0 the
result ports are unspecified and show nothing (42_finish_result.md R96, R97; notes/assumptions/3.md). -/
def Block.obs (bl : Block) : Bool × Option Accs := (bl.done, if bl.done then some bl.accs else none)

end Sys2Proof.Machine
end

