-- ==== Sys2Proof/Machine/Finish.lean ====
section
/-! DEFINITION. The command END (42_finish_result.md). -/

namespace Sys2Proof.Machine

/-- END (42_finish_result.md R95): the trailing group is dropped and DONE set, while DONE = 0; A, B, C, D stay. -/
def execEnd (s : State) : Host.Outcome State Fault Refusal := .next (s.withBlock (s.block.whenRun (·.endInput)))

end Sys2Proof.Machine
end

