-- ==== Sys2Proof/Machine/Ingest.lean ====
section
/-! DEFINITION. The data commands PUTB and PUTW (41_data_ingest.md). -/

namespace Sys2Proof.Machine

/-- PUTB imm8 (41_data_ingest.md R77): one PUSHBYTE while DONE = 0. -/
def execPutb (imm8 : Byte) (s : State) : Host.Outcome State Fault Refusal :=
  .next (s.withBlock (s.block.whenRun (·.pushByte imm8)))

/-- PUTW imm32 (41_data_ingest.md R78): four PUSHBYTE, one atomic event, while DONE = 0; legal at every phase. -/
def execPutw (imm32 : Word) (s : State) : Host.Outcome State Fault Refusal :=
  .next (s.withBlock (s.block.whenRun (·.pushWord imm32)))

end Sys2Proof.Machine
end

