-- ==== Sys2Proof/Machine/Start.lean ====
section
/-! DEFINITION. The commands that set the starting accumulator: CLR and LDACC (40_init_seed.md). -/

namespace Sys2Proof.Machine

/-- CLR, in every state (40_init_seed.md R65). -/
def execClr (s : State) : Host.Outcome State Fault Refusal := .next (s.withBlock s.block.clear)

/-- LDACC r, imm64 (40_init_seed.md R66): only while DONE = 0; `pend` and the other accumulators stay. -/
def execLdacc (r : AccName) (imm64 : Acc64) (s : State) : Host.Outcome State Fault Refusal :=
  .next (s.withBlock (s.block.whenRun (·.loadAcc r imm64)))

end Sys2Proof.Machine
end

