-- ==== Sys2Proof/Machine/Dispatch.lean ====
section
/-! DEFINITION. The dispatch of a command to its meaning, one arm per constructor of Instr. -/

namespace Sys2Proof.Machine

/-- The effect of one command. -/
def exec (i : Instr) (s : State) : Host.Outcome State Fault Refusal :=
  match i with
  | .clr => Sys2Proof.Machine.execClr s
  | .putb imm8 => Sys2Proof.Machine.execPutb imm8 s
  | .putw imm32 => Sys2Proof.Machine.execPutw imm32 s
  | .finish => Sys2Proof.Machine.execEnd s
  | .ldacc r imm64 => Sys2Proof.Machine.execLdacc r imm64 s

end Sys2Proof.Machine
end

