-- ==== Sys2Proof/Machine/Step.lean ====
section
/-! DEFINITION. One step of the machine: the host's next event takes effect, atomically (00_scope.md R8). -/

namespace Sys2Proof.Machine

/-- One event. A reset event resets the block (70_reset_and_hazards.md R125); an accepted command word is decoded and
executed, and is consumed whatever its effect (42_finish_result.md R107). When the host has no further event the block
waits with its state unchanged, which is no error (60_exceptions.md R114; notes/assumptions/1.md). -/
def step (s : State) : Host.Outcome State Fault Refusal :=
  match s.takeInput with
  | none => .next s
  | some (.reset, rest) => .next rest.resetEvent
  | some (.accept cw, rest) => exec (decode cw) rest

/-- The machine whose next event is the acceptance of the given table word. -/
def State.withFetchWord (s : State) (nbits w : Nat) : State := s.present (tableWord nbits w)

end Sys2Proof.Machine
end

