-- ==== Sys2Proof/Machine/Asm.lean ====
section
/-! DEFINITION. The assembler's syntax (30_encoding.md R55, R57), its pseudo-instructions (R56) and its output, the
canonical command words (R58). It has no effect on the hardware (92_eei_decisions.md D16). What R55 leaves open of
the text (the case of hexadecimal digits, where an underscore may stand, blanks) is in notes/assumptions/7.md. -/

namespace Sys2Proof.Machine

/-- One line of assembly: a command, or a pseudo-instruction of 30_encoding.md R56. -/
inductive Stmt where
  | cmd (raw : RawCmd)
  | lda (imm64 : Nat)
  | ldb (imm64 : Nat)
  | ldc (imm64 : Nat)
  | ldd (imm64 : Nat)
  | seed (a b c d : Nat)
  | bytes (bs : List Nat)
  | words (ws : List Nat)
  | compute (bs : List Nat)
deriving DecidableEq, Repr

/-- The commands a statement stands for, in the order shown (30_encoding.md R56). -/
def Stmt.expand : Stmt → List RawCmd
  | .cmd raw => [raw]
  | .lda imm64 => [.ldacc 0 imm64]
  | .ldb imm64 => [.ldacc 1 imm64]
  | .ldc imm64 => [.ldacc 2 imm64]
  | .ldd imm64 => [.ldacc 3 imm64]
  | .seed a b c d => [.ldacc 0 a, .ldacc 1 b, .ldacc 2 c, .ldacc 3 d]
  | .bytes bs => bs.map .putb
  | .words ws => ws.map .putw
  | .compute bs => .clr :: bs.map .putb ++ [.finish]

/-- The commands of a list of raw commands, rejected when a number does not fit its field (30_encoding.md R55). -/
def instrsOf? : List RawCmd → Option (List Instr)
  | [] => some []
  | raw :: rest =>
    match raw.toInstr?, instrsOf? rest with
    | some i, some is => some (i :: is)
    | _, _ => none

/-- A token of a line: a run of characters between blanks and commas, or a comma. -/
inductive Tok where
  | word (cs : List Char)
  | comma
deriving DecidableEq, Repr

/-- The token collected so far, whose characters are `acc` in reverse. -/
def flushTok (acc : List Char) : List Tok := if acc.isEmpty then [] else [.word acc.reverse]

/-- The tokens of one line; a `;` starts a comment that runs to the end of the line (30_encoding.md R55). -/
def tokens : List Char → List Char → List Tok
  | [], acc => flushTok acc
  | ch :: cs, acc =>
    if ch = ';' then flushTok acc
    else if ch = ',' then flushTok acc ++ .comma :: tokens cs []
    else if ch = ' ' || ch = '\t' || ch = '\r' then flushTok acc ++ tokens cs []
    else tokens cs (ch :: acc)

/-- The value of one digit of a base up to 16. -/
def digit? (base : Nat) (ch : Char) : Option Nat :=
  let v :=
    if '0' ≤ ch ∧ ch ≤ '9' then ch.toNat - '0'.toNat
    else if 'A' ≤ ch ∧ ch ≤ 'F' then ch.toNat - 'A'.toNat + 10
    else if 'a' ≤ ch ∧ ch ≤ 'f' then ch.toNat - 'a'.toNat + 10
    else base
  if v < base then some v else none

/-- The number of a run of digits, read from the left; underscores are ignored (30_encoding.md R55). -/
def digits? (base : Nat) : Nat → List Char → Option Nat
  | acc, [] => some acc
  | acc, ch :: cs =>
    if ch = '_' then digits? base acc cs
    else
      match digit? base ch with
      | some v => digits? base (base * acc + v) cs
      | none => none

/-- A number: decimal, or hexadecimal after `0x` (30_encoding.md R55). It begins with a digit, also after the `0x`. -/
def number? : List Char → Option Nat
  | '0' :: 'x' :: ch :: cs =>
    match digit? 16 ch with
    | some v => digits? 16 v cs
    | none => none
  | ch :: cs =>
    match digit? 10 ch with
    | some v => digits? 10 v cs
    | none => none
  | [] => none

/-- A register: `A`, `B`, `C`, `D` or a number; whether the number is 0 to 3 is checked with the other operands
(30_encoding.md R55, R57). -/
def register? (cs : List Char) : Option Nat :=
  if cs = ['A'] then some 0
  else if cs = ['B'] then some 1
  else if cs = ['C'] then some 2
  else if cs = ['D'] then some 3
  else number? cs

/-- Numbers separated by blanks (30_encoding.md R56). -/
def numbers? : List Tok → Option (List Nat)
  | [] => some []
  | .comma :: _ => none
  | .word cs :: rest =>
    match number? cs, numbers? rest with
    | some n, some ns => some (n :: ns)
    | _, _ => none

/-- The one number of an operand list. -/
def oneNumber? : List Tok → Option Nat
  | [.word cs] => number? cs
  | _ => none

/-- The operands `a, b, c, d` of SEED (30_encoding.md R56). -/
def fourNumbers? : List Tok → Option (Nat × Nat × Nat × Nat)
  | [.word ca, .comma, .word cb, .comma, .word cc, .comma, .word cd] =>
    match number? ca, number? cb, number? cc, number? cd with
    | some a, some b, some c, some d => some (a, b, c, d)
    | _, _, _, _ => none
  | _ => none

/-- The operands `r, imm64` of LDACC (30_encoding.md R55). -/
def regAndNumber? : List Tok → Option (Nat × Nat)
  | [.word cr, .comma, .word cn] =>
    match register? cr, number? cn with
    | some r, some n => some (r, n)
    | _, _ => none
  | _ => none

/-- The statement of a mnemonic and its operands; mnemonics are upper case (30_encoding.md R55, R56). -/
def stmtOf? (m : List Char) (ops : List Tok) : Option Stmt :=
  if m = ['C', 'L', 'R'] then if ops = [] then some (.cmd .clr) else none
  else if m = ['P', 'U', 'T', 'B'] then (oneNumber? ops).map fun n => .cmd (.putb n)
  else if m = ['P', 'U', 'T', 'W'] then (oneNumber? ops).map fun n => .cmd (.putw n)
  else if m = ['E', 'N', 'D'] then if ops = [] then some (.cmd .finish) else none
  else if m = ['L', 'D', 'A', 'C', 'C'] then (regAndNumber? ops).map fun o => .cmd (.ldacc o.1 o.2)
  else if m = ['L', 'D', 'A'] then (oneNumber? ops).map .lda
  else if m = ['L', 'D', 'B'] then (oneNumber? ops).map .ldb
  else if m = ['L', 'D', 'C'] then (oneNumber? ops).map .ldc
  else if m = ['L', 'D', 'D'] then (oneNumber? ops).map .ldd
  else if m = ['S', 'E', 'E', 'D'] then (fourNumbers? ops).map fun o => .seed o.1 o.2.1 o.2.2.1 o.2.2.2
  else if m = ['B', 'Y', 'T', 'E', 'S'] then (numbers? ops).map .bytes
  else if m = ['W', 'O', 'R', 'D', 'S'] then (numbers? ops).map .words
  else if m = ['C', 'O', 'M', 'P', 'U', 'T', 'E'] then (numbers? ops).map .compute
  else none

/-- One line of assembly: its commands, none for a line that is empty or only a comment; `none` where the assembler
rejects the line (30_encoding.md R55). -/
def assembleLine? (line : List Char) : Option (List Instr) :=
  match tokens line [] with
  | [] => some []
  | .comma :: _ => none
  | .word m :: ops =>
    match stmtOf? m ops with
    | some st => instrsOf? st.expand
    | none => none

/-- The lines of a text, one command per line (30_encoding.md R55). -/
def linesOf : List Char → List Char → List (List Char)
  | [], acc => [acc.reverse]
  | ch :: cs, acc => if ch = '\n' then acc.reverse :: linesOf cs [] else linesOf cs (ch :: acc)

/-- The commands of a list of lines. -/
def assembleLines? : List (List Char) → Option (List Instr)
  | [] => some []
  | line :: rest =>
    match assembleLine? line, assembleLines? rest with
    | some is, some js => some (is ++ js)
    | _, _ => none

/-- The assembler: the canonical command words of a text, or a rejection (30_encoding.md R55, R58). -/
def assemble? (text : List Char) : Option (List CmdWord) :=
  (assembleLines? (linesOf text [])).map (·.map encode)

end Sys2Proof.Machine
end

