-- ==== Sys2Proof/Machine/Pipeline.lean ====
section
/-! DEFINITION. The four-stage reference pipeline of 41_data_ingest.md R88. It is no part of the machine's State
(10_state.md R20) and no rule of the model reads it (R88 is informative): it is written out so that its agreement with
ABSORB, which R87 asks of every implementation, can be stated. -/

namespace Sys2Proof.Machine

/-- The registers of the pipeline: the four accumulators and the three forwarding registers between stages. A
forwarding register without a valid bit is `none` (41_data_ingest.md R88). -/
structure Pipe where
  accs : Accs
  /-- From stage 1 to stage 2: the new A. -/
  f1 : Option Acc64
  /-- From stage 2 to stage 3: the new B. -/
  f2 : Option Acc64
  /-- From stage 3 to stage 4: the new C. -/
  f3 : Option Acc64
deriving DecidableEq, Repr

/-- A pipeline with nothing in flight. -/
def Pipe.empty (x : Accs) : Pipe := ⟨x, none, none, none⟩

/-- The adder of one stage: with a valid input, the accumulator gains it; without one it stays
(41_data_ingest.md R88). -/
def stageAdd (acc : Acc64) : Option Acc64 → Acc64
  | some v => acc + v
  | none => acc

/-- What a stage forwards: its new accumulator when it had a valid input (41_data_ingest.md R88). -/
def stageForward (acc : Acc64) : Option Acc64 → Option Acc64
  | some v => some (acc + v)
  | none => none

/-- One clock cycle: every stage reads the forwarding register before it as it stood at the start of the cycle, and a
Word may enter stage 1 (41_data_ingest.md R88). -/
def Pipe.cycle (p : Pipe) (entering : Option Word) : Pipe :=
  { accs :=
      { a := stageAdd p.accs.a (entering.map zext64)
        b := stageAdd p.accs.b p.f1
        c := stageAdd p.accs.c p.f2
        d := stageAdd p.accs.d p.f3 }
    f1 := stageForward p.accs.a (entering.map zext64)
    f2 := stageForward p.accs.b p.f1
    f3 := stageForward p.accs.c p.f2 }

/-- A sequence of cycles, each with the Word that enters in it, if any. -/
def Pipe.cycles (p : Pipe) (entering : List (Option Word)) : Pipe := entering.foldl Pipe.cycle p

/-- The three cycles after the last Word has entered, which make D final (41_data_ingest.md R88). -/
def Pipe.drain (p : Pipe) : Pipe := p.cycles [none, none, none]

end Sys2Proof.Machine
end

