-- ==== Sys2Proof/Machine/Port.lean ====
section
/-! DEFINITION. The input ports of the block and the acceptance of commands at clock edges
(30_encoding.md R45, R46; 60_exceptions.md R113). Time itself is not modelled (00_scope.md R8): an edge only says
which event, if any, happens at it. -/

namespace Sys2Proof.Machine

/-- The input wires and `cmd_ready` as sampled at one rising edge of `clk` (30_encoding.md R45). When the block raises
`cmd_ready` is left open (93_implementation_defined.md U4; DESIGN CHOICE, safe: notes/assumptions/4.md), so an edge
may hold either value of it. -/
structure Edge where
  /-- `rst`: the reset is asserted, in whatever electrical form. -/
  rst : Bool
  /-- `cmd_valid`: the host presents a command word. -/
  cmdValid : Bool
  /-- `cmd_ready`: the block can take a command word. -/
  cmdReady : Bool
  /-- `cmd_op`. -/
  cmdOp : BitVec 3
  /-- `cmd_data`. -/
  cmdData : BitVec 64
deriving DecidableEq, Repr

/-- `CW = cmd_op, cmd_data` as sampled at the edge (30_encoding.md R46). -/
def Edge.word (e : Edge) : CmdWord := cmdWord e.cmdOp e.cmdData

/-- The event of an edge (30_encoding.md R46): an asserted reset wins over an acceptance (60_exceptions.md R113), and an
edge without both `cmd_valid` and `cmd_ready` changes nothing. -/
def Edge.event? (e : Edge) : Option Event :=
  if e.rst then some .reset
  else if e.cmdValid && e.cmdReady then some (.accept e.word)
  else none

/-- The machine with the events of a sequence of clock edges added to what the host has still to send. -/
def State.clocked (s : State) (edges : List Edge) : State :=
  { s with inputs := s.inputs ++ edges.filterMap Edge.event? }

/-- The duty of the host between edges: while it presents a word that has not been accepted, the next edge shows the same
word (30_encoding.md R46), still valid (70_reset_and_hazards.md R129).
DESIGN CHOICE, safe (notes/assumptions/11.md): an edge with `rst = 1` ends the duty. R46 and R129 end it at an acceptance
and do not say whether it lasts across a reset. -/
def holdsCommand : List Edge → Bool
  | e :: f :: rest =>
    (!(e.cmdValid && !e.rst && !e.cmdReady) || (f.cmdValid && f.word = e.word)) && holdsCommand (f :: rest)
  | _ => true

end Sys2Proof.Machine
end

