-- ==== Sys2Proof/Machine/Contract.lean ====
section
/-! DEFINITION. The contract function `compute`, its seeded form `fold`, the partition of a byte sequence into groups
(20_memory.md R35; 42_finish_result.md R99), and the same sums in exact integer arithmetic (41_data_ingest.md R81,
R84, R85). The block never runs these: they say what its result is. -/

namespace Sys2Proof.Machine

/-- The little-endian number of a byte sequence: its first byte is the least significant (00_scope.md R7). -/
def leNat : List Byte → Nat
  | [] => 0
  | b :: rest => b.toNat + 256 * leNat rest

/-- `MemRead(off, n)` of the InputBuffer `data`: `n` bytes from offset `off`, little-endian (00_scope.md R7). -/
def memRead (data : List Byte) (off n : Nat) : BitVec (8 * n) := BitVec.ofNat (8 * n) (leNat ((data.drop off).take n))

/-- `nwords(data)` (20_memory.md R35). -/
def nwords (data : List Byte) : Nat := data.length / Config.wordBytes

/-- `word(data, k)` (20_memory.md R35). -/
def wordAt (data : List Byte) (k : Nat) : Word := memRead data (Config.wordBytes * k) Config.wordBytes

/-- `words(data)` (20_memory.md R35). -/
def wordsOf (data : List Byte) : List Word := (List.range (nwords data)).map (wordAt data)

/-- `tail(data)`, the trailing group (20_memory.md R35, R36). -/
def tailOf (data : List Byte) : List Byte := data.drop (Config.wordBytes * nwords data)

/-- The accumulators after a sequence of Words, absorbed in order (41_data_ingest.md R75). -/
def Accs.absorbAll (x : Accs) (vs : List Word) : Accs := vs.foldl Accs.absorb x

/-- One turn of the loop of 42_finish_result.md R99, on the four sums as integers below 2^64. -/
def Accs.loopBody (x : Accs) (value : Word) : Accs :=
  let a := (x.a.toNat + value.toNat) % 2 ^ 64
  let b := (x.b.toNat + a) % 2 ^ 64
  let c := (x.c.toNat + b) % 2 ^ 64
  let d := (x.d.toNat + c) % 2 ^ 64
  ⟨BitVec.ofNat 64 a, BitVec.ofNat 64 b, BitVec.ofNat 64 c, BitVec.ofNat 64 d⟩

/-- `fold(s, data)`: the loop over the complete groups, ascending, started from `s` (42_finish_result.md R99). -/
def Accs.fold (s : Accs) (data : List Byte) : Accs :=
  (List.range (nwords data)).foldl (fun x k => x.loopBody (wordAt data k)) s

/-- `compute(data)` (42_finish_result.md R99). -/
def compute (data : List Byte) : Accs := Accs.zero.fold data

/-- The four sums as unreduced integers (41_data_ingest.md R85). -/
structure ExactSums where
  a : Nat
  b : Nat
  c : Nat
  d : Nat
deriving DecidableEq, Repr

/-- ABSORB without the reduction modulo 2^64 (41_data_ingest.md R75, R85). -/
def ExactSums.absorb (x : ExactSums) (v : Word) : ExactSums :=
  let a := x.a + v.toNat
  let b := x.b + a
  let c := x.c + b
  let d := x.d + c
  ⟨a, b, c, d⟩

/-- The exact sums of a sequence of Words from the zero start (41_data_ingest.md R85). -/
def exactSums (vs : List Word) : ExactSums := vs.foldl ExactSums.absorb ⟨0, 0, 0, 0⟩

end Sys2Proof.Machine
end

