-- ==== Sys2Proof/Safety.lean ====
section
/-! DEFINITION. What counts as a safe state and a safe run, in the terms the statements use. The block raises nothing
(60_exceptions.md R110), so every run answers a next state; what can go wrong is a state outside 10_state.md R23. -/

namespace Sys2Proof.Machine

/-- The invariant of 10_state.md R23 that the types do not already say: at most three pending bytes, and none while a
Result is held. -/
abbrev Block.Inv (bl : Block) : Prop := bl.pend.length ≤ 3 ∧ (bl.done = true → bl.pend = [])

/-- The invariant of the machine: that of its block. The host's list is arbitrary. -/
abbrev State.Inv (s : State) : Prop := s.block.Inv

/-- The machine with a list of events to run, and nothing after them. -/
def State.facing (bl : Block) (events : List Event) : State := ⟨bl, events⟩

/-- The events of accepting a list of command words (30_encoding.md R46). -/
def acceptAll (cws : List CmdWord) : List Event := cws.map .accept

/-- The outcome of a run: all the host's events take effect, one step each (70_reset_and_hazards.md R134). -/
def runAll (s : State) : Host.Outcome State Fault Refusal := Sys2Proof.core.run s.inputs.length s

/-- The outcome of executing a list of commands one after another, from a block with no other event to come. -/
def runCommands (cmds : List Instr) (bl : Block) : Host.Outcome State Fault Refusal :=
  runAll (State.facing bl (acceptAll (cmds.map encode)))

/-- Whether an event starts a new computation: the reset event or an accepted CLR. These are the only two events that
leave the DONE state (42_finish_result.md R98, R107). -/
def Event.restarts : Event → Bool
  | .reset => true
  | .accept cw => decode cw = .clr

end Sys2Proof.Machine
end

