-- ==== Sys2Proof/Certificates/Slice0/Obligations.lean ====
section
/-! DEFINITION. The statements for the provers, rule by rule: encoding, events and steps, the five commands, the two
micro-operations, control, reset and invariants, the contract function and its laws, arithmetic, the reference
pipeline, the assembler. Each is listed in OBLIGATIONS.json. -/

open Sys2Proof Sys2Proof.Machine

/-! ### Encoding (30_encoding.md) -/

/-- R58: the canonical words, the round trip, and what encoding a decoded word gives back. -/
def Obligations.DecodeEncodeRoundTrip : Prop :=
  (∀ i, decode (encode i) = i) ∧
  (∀ cw, encode (decode cw) = cw &&& ~~~unusedMask (decode cw)) ∧
  (∀ cw, encode (decode cw) = cw ↔ cw &&& unusedMask (decode cw) = 0) ∧
  (encode .clr).toNat = 0 ∧
  (∀ imm8, (encode (.putb imm8)).toNat = 2 ^ 64 + imm8.toNat) ∧
  (∀ imm32, (encode (.putw imm32)).toNat = 2 * 2 ^ 64 + imm32.toNat) ∧
  (encode .finish).toNat = 3 * 2 ^ 64 ∧
  (∀ r imm64, (encode (.ldacc r imm64)).toNat = (4 + (accNumber r).toNat) * 2 ^ 64 + imm64.toNat)

/-- R51: the command of a word by its operation code, with every operand at its place. -/
def Obligations.DecodeByOperationCode : Prop :=
  ∀ cw : CmdWord,
    cw.toNat / 2 ^ 64 < 8 ∧
    (cw.toNat / 2 ^ 64 = 0 → decode cw = .clr) ∧
    (cw.toNat / 2 ^ 64 = 1 → decode cw = .putb (BitVec.ofNat 8 cw.toNat)) ∧
    (cw.toNat / 2 ^ 64 = 2 → decode cw = .putw (BitVec.ofNat 32 cw.toNat)) ∧
    (cw.toNat / 2 ^ 64 = 3 → decode cw = .finish) ∧
    (∀ r, cw.toNat / 2 ^ 64 = 4 + (accNumber r).toNat → decode cw = .ldacc r (BitVec.ofNat 64 cw.toNat))

/-- R48, R53: every word is matched by exactly one row of the opcode map, the row of its command. -/
def Obligations.OpcodeRowsPartitionTheWords : Prop :=
  ∀ cw : CmdWord, (opcodeRows.filter (matchesRow · cw)).map OpcodeRow.mnemonic = [mnemonic (decode cw)]

/-- R52: words that differ only in unused bits are the same command and have the same effect; the assembler's words
have them 0. -/
def Obligations.UnusedBitsHaveNoEffect : Prop :=
  (∀ cw cw' : CmdWord, (cw ^^^ cw') &&& ~~~unusedMask (decode cw) = 0 →
    decode cw' = decode cw ∧
    ∀ bl rest, step ⟨bl, .accept cw' :: rest⟩ = step ⟨bl, .accept cw :: rest⟩) ∧
  (∀ i, encode i &&& unusedMask i = 0)

/-- The words of 95_test_vectors.md, table 2.1 (E1 to E14), decode to the commands they stand for. -/
def Obligations.TabulatedWordsDecode : Prop :=
  decode 0x00000000000000000 = .clr ∧
  decode 0x100000000000000AB = .putb 0xAB ∧
  decode 0x10000000000000000 = .putb 0 ∧
  decode 0x20000000012345678 = .putw 0x12345678 ∧
  decode 0x30000000000000000 = .finish ∧
  decode 0x4FFFFFFFFFFFFFFFF = .ldacc .a 0xFFFFFFFFFFFFFFFF ∧
  decode 0x50000000000000010 = .ldacc .b 0x10 ∧
  decode 0x60000000000000005 = .ldacc .c 5 ∧
  decode 0x70000000000000001 = .ldacc .d 1 ∧
  decode 0x0FFFFFFFFFFFFFFFF = .clr ∧
  decode 0x1FFFFFFFFFFFFFF01 = .putb 1 ∧
  decode 0x2DEADBEEF00000001 = .putw 1 ∧
  decode 0x30000000000000001 = .finish ∧
  decode 0x70000000000000000 = .ldacc .d 0

/-! ### Events and steps (00_scope.md, 30_encoding.md) -/

/-- R8, R46: a step is the host's next event, taken from its list: an accepted word runs its decoded command, a reset
event resets, and with no event to come nothing changes (the last is the model's choice, notes/assumptions/1.md). -/
def Obligations.StepRunsTheDecodedCommand : Prop :=
  (∀ bl cw rest, step ⟨bl, .accept cw :: rest⟩ = exec (decode cw) ⟨bl, rest⟩) ∧
  (∀ bl rest, step ⟨bl, .reset :: rest⟩ = .next ⟨Block.reset, rest⟩) ∧
  (∀ bl, step ⟨bl, []⟩ = .next ⟨bl, []⟩)

/-- A table word presented to the machine is what the very next step runs (the host's interface;
notes/assumptions/1.md and notes/assumptions/2.md). -/
def Obligations.PresentedWordRunsNext : Prop :=
  ∀ (s : State) (nbits w : Nat) (i : Instr),
    decodeTableWord nbits w = some i → step (s.withFetchWord nbits w) = exec i s

/-- R45, R46, R113: the event of a clock edge. An asserted reset wins; a word is accepted with valid and ready both 1;
any other edge changes nothing. -/
def Obligations.EdgeDecidesTheEvent : Prop :=
  ∀ e : Edge,
    (e.rst = true → e.event? = some .reset) ∧
    (e.rst = false → e.cmdValid = true → e.cmdReady = true →
      ∃ cw, e.event? = some (.accept cw) ∧ cw.toNat = e.cmdOp.toNat * 2 ^ 64 + e.cmdData.toNat) ∧
    (e.rst = false → (e.cmdValid = false ∨ e.cmdReady = false) → ∀ s : State, s.clocked [e] = s)

/-- R46, R133: a host that presents a word and holds it has exactly that word accepted first, once the block is ready
at some edge and no reset comes. With no reset in the list, nothing here rests on notes/assumptions/11.md. -/
def Obligations.HeldCommandIsAccepted : Prop :=
  ∀ (e : Edge) (edges : List Edge),
    holdsCommand (e :: edges) = true → e.cmdValid = true →
    (∀ f ∈ e :: edges, f.rst = false) → (∃ f ∈ e :: edges, f.cmdReady = true) →
    ((e :: edges).filterMap Edge.event?).head? = some (.accept e.word)

/-- R40: events take effect in order, each completely; what is still to come does not change what has happened. -/
def Obligations.EventsTakeEffectInOrder : Prop :=
  ∀ (bl : Block) (first later : List Event),
    ∃ bl', runAll (State.facing bl first) = .next ⟨bl', []⟩ ∧
      Sys2Proof.core.run first.length ⟨bl, first ++ later⟩ = .next ⟨bl', later⟩ ∧
      runAll (State.facing bl (first ++ later)) = runAll (State.facing bl' later)

/-! ### The five commands -/

/-- R65: CLR, in every state: the cleared state, which is the reset state and shows no Result. It is idempotent, and the
only command with an effect while DONE = 1. Its encoding is every word with operation code 0. -/
def Obligations.ClrStartsAComputation : Prop :=
  (∀ s, exec .clr s = .next ⟨⟨⟨0, 0, 0, 0⟩, [], false⟩, s.inputs⟩) ∧
  (∀ s t, exec .clr s = .next t →
    t.block = State.reset.block ∧ t.block.obs = (false, none) ∧ exec .clr t = .next t) ∧
  (∀ i s t, s.block.done = true → exec i s = .next t → t ≠ s → i = .clr) ∧
  (encode .clr = 0 ∧ ∀ cw : CmdWord, cw.toNat / 2 ^ 64 = 0 → decode cw = .clr)

/-- R66: LDACC loads one accumulator while DONE = 0, leaves the others, `pend` and DONE alone, and has no effect while
DONE = 1. Of two loads of one register the second wins. Its words are those of operation code 4 + r. -/
def Obligations.LdaccLoadsOneAccumulator : Prop :=
  (∀ r imm64 s, s.block.done = false →
    ∃ t, exec (.ldacc r imm64) s = .next t ∧ t.block.accs.read r = imm64 ∧
      (∀ q, q ≠ r → t.block.accs.read q = s.block.accs.read q) ∧
      t.block.pend = s.block.pend ∧ t.block.done = false ∧ t.inputs = s.inputs) ∧
  (∀ r imm64 s, s.block.done = true → exec (.ldacc r imm64) s = .next s) ∧
  (∀ r first second s t, exec (.ldacc r first) s = .next t → exec (.ldacc r second) t = exec (.ldacc r second) s) ∧
  (∀ r imm64, (encode (.ldacc r imm64)).toNat = (4 + (accNumber r).toNat) * 2 ^ 64 + imm64.toNat) ∧
  (∀ (cw : CmdWord) r, cw.toNat / 2 ^ 64 = 4 + (accNumber r).toNat →
    decode cw = .ldacc r (BitVec.ofNat 64 cw.toNat))

/-- R77: PUTB is one PUSHBYTE while DONE = 0: the fourth byte of a group absorbs the Word, any other is kept. -/
def Obligations.PutbSuppliesOneByte : Prop :=
  (∀ imm8 s p0 p1 p2, s.block.done = false → s.block.pend = [p0, p1, p2] →
    exec (.putb imm8) s = .next ⟨⟨s.block.accs.absorb (groupWord p0 p1 p2 imm8), [], false⟩, s.inputs⟩) ∧
  (∀ imm8 s, s.block.done = false → s.block.pend.length ≠ 3 →
    exec (.putb imm8) s = .next ⟨⟨s.block.accs, s.block.pend ++ [imm8], false⟩, s.inputs⟩) ∧
  (∀ imm8 s, s.block.done = true → exec (.putb imm8) s = .next s) ∧
  (∀ imm8, (encode (.putb imm8)).toNat = 2 ^ 64 + imm8.toNat) ∧
  (∀ cw : CmdWord, cw.toNat / 2 ^ 64 = 1 → decode cw = .putb (BitVec.ofNat 8 cw.toNat))

/-- R78: PUTW is the four PUTB of its lanes, lowest first, with nothing in between; it has no effect while DONE = 1; while
DONE = 0 it absorbs exactly one Word and leaves the phase unchanged. -/
def Obligations.PutwIsFourPutb : Prop :=
  (∀ (imm32 : Word) (s : State), ∃ t1 t2 t3 t,
    exec (.putb (BitVec.ofNat 8 imm32.toNat)) s = .next t1 ∧
    exec (.putb (BitVec.ofNat 8 (imm32.toNat / 2 ^ 8))) t1 = .next t2 ∧
    exec (.putb (BitVec.ofNat 8 (imm32.toNat / 2 ^ 16))) t2 = .next t3 ∧
    exec (.putb (BitVec.ofNat 8 (imm32.toNat / 2 ^ 24))) t3 = .next t ∧
    exec (.putw imm32) s = .next t) ∧
  (∀ imm32 s, s.block.done = true → exec (.putw imm32) s = .next s) ∧
  (∀ imm32 s, s.block.done = false → s.block.pend.length ≤ 3 →
    ∃ v t, exec (.putw imm32) s = .next t ∧ t.block.accs = s.block.accs.absorb v ∧
      t.block.pend.length = s.block.pend.length ∧ t.block.done = false ∧ t.inputs = s.inputs) ∧
  (∀ imm32, (encode (.putw imm32)).toNat = 2 * 2 ^ 64 + imm32.toNat) ∧
  (∀ cw : CmdWord, cw.toNat / 2 ^ 64 = 2 → decode cw = .putw (BitVec.ofNat 32 cw.toNat))

/-- R79, R80: the Word that PUTW absorbs and the bytes it leaves pending, at every phase. -/
def Obligations.PutwAtEveryPhase : Prop :=
  ∀ (x : Accs) (pend : List Byte) (imm32 : Word) (rest : List Event), pend.length ≤ 3 →
    exec (.putw imm32) ⟨⟨x, pend, false⟩, rest⟩ =
      .next ⟨⟨x.absorb (BitVec.ofNat 32
            (leNat pend + 2 ^ (8 * pend.length) * (imm32.toNat % 2 ^ (8 * (4 - pend.length))))),
          (lanes imm32).drop (4 - pend.length), false⟩, rest⟩

/-- R95: END drops the trailing group, keeps A, B, C, D and sets DONE; a second END has no effect. -/
def Obligations.EndHoldsTheResult : Prop :=
  (∀ s, s.block.done = false → exec .finish s = .next ⟨⟨s.block.accs, [], true⟩, s.inputs⟩) ∧
  (∀ s, s.block.done = true → exec .finish s = .next s) ∧
  (encode .finish).toNat = 3 * 2 ^ 64 ∧
  (∀ cw : CmdWord, cw.toNat / 2 ^ 64 = 3 → decode cw = .finish)

/-! ### The micro-operations and the arithmetic -/

/-- R75: ABSORB as four additions modulo 2^64 of unsigned integers, in this order. -/
def Obligations.AbsorbAddsInOrder : Prop :=
  ∀ (x : Accs) (v : Word),
    (x.absorb v).a.toNat = (x.a.toNat + v.toNat) % 2 ^ 64 ∧
    (x.absorb v).b.toNat = (x.b.toNat + (x.absorb v).a.toNat) % 2 ^ 64 ∧
    (x.absorb v).c.toNat = (x.c.toNat + (x.absorb v).b.toNat) % 2 ^ 64 ∧
    (x.absorb v).d.toNat = (x.d.toNat + (x.absorb v).c.toNat) % 2 ^ 64

/-- R83: the same with old values only, and the check that tells it from the wrong form. -/
def Obligations.AbsorbFromOldValues : Prop :=
  (∀ (x : Accs) (v : Word),
    (x.absorb v).a.toNat = (x.a.toNat + v.toNat) % 2 ^ 64 ∧
    (x.absorb v).b.toNat = (x.b.toNat + x.a.toNat + v.toNat) % 2 ^ 64 ∧
    (x.absorb v).c.toNat = (x.c.toNat + x.b.toNat + x.a.toNat + v.toNat) % 2 ^ 64 ∧
    (x.absorb v).d.toNat = (x.d.toNat + x.c.toNat + x.b.toNat + x.a.toNat + v.toNat) % 2 ^ 64) ∧
  Accs.absorb ⟨1, 1, 1, 1⟩ 2 = ⟨3, 4, 5, 6⟩ ∧ Accs.absorb ⟨1, 1, 1, 1⟩ 2 ≠ ⟨3, 2, 2, 2⟩

/-- R76: PUSHBYTE with three bytes pending decodes the Word and absorbs it; otherwise it appends. The phase counts
bytes modulo 4. -/
def Obligations.PushByteCompletesGroups : Prop :=
  (∀ (bl : Block) (b p0 p1 p2 : Byte) (v : Word), bl.pend = [p0, p1, p2] →
    v.toNat = p0.toNat + 256 * p1.toNat + 65536 * p2.toNat + 16777216 * b.toNat →
    bl.pushByte b = ⟨bl.accs.absorb v, [], bl.done⟩) ∧
  (∀ (bl : Block) (b : Byte), bl.pend.length ≠ 3 → bl.pushByte b = ⟨bl.accs, bl.pend ++ [b], bl.done⟩) ∧
  (∀ (bl : Block) (b : Byte), bl.pend.length ≤ 3 → (bl.pushByte b).pend.length = (bl.pend.length + 1) % 4)

/-- R32: a Word is little-endian. -/
def Obligations.WordIsLittleEndian : Prop :=
  (∀ (data : List Byte) (k : Nat) (h : 4 * k + 3 < data.length),
    (wordAt data k).toNat =
      data[4 * k].toNat + 256 * data[4 * k + 1].toNat + 65536 * data[4 * k + 2].toNat
        + 16777216 * data[4 * k + 3].toNat ∧
    wordAt data k = groupWord data[4 * k] data[4 * k + 1] data[4 * k + 2] data[4 * k + 3]) ∧
  wordAt [2, 0, 0, 0] 0 = 2 ∧ wordAt [2, 0, 0, 0] 0 ≠ 0x02000000

/-- R33: the lanes of a PUTW payload in offset order, and at phase 0 they are the Word itself. -/
def Obligations.LanesAreInOffsetOrder : Prop :=
  ∀ imm32 : Word,
    (lanes imm32).map BitVec.toNat =
      [imm32.toNat % 256, imm32.toNat / 2 ^ 8 % 256, imm32.toNat / 2 ^ 16 % 256, imm32.toNat / 2 ^ 24 % 256] ∧
    groupWord (laneOf 0 imm32) (laneOf 1 imm32) (laneOf 2 imm32) (laneOf 3 imm32) = imm32

/-- R81: reducing modulo 2^64 after every addition and once at the end give the same sums. -/
def Obligations.SumsAreExactSumsReduced : Prop :=
  ∀ vs : List Word,
    (Accs.zero.absorbAll vs).a.toNat = (exactSums vs).a % 2 ^ 64 ∧
    (Accs.zero.absorbAll vs).b.toNat = (exactSums vs).b % 2 ^ 64 ∧
    (Accs.zero.absorbAll vs).c.toNat = (exactSums vs).c % 2 ^ 64 ∧
    (Accs.zero.absorbAll vs).d.toNat = (exactSums vs).d % 2 ^ 64

/-- R84: the closed forms, for any start and for equal Words from the zero start. The Word at index `j` is the rule's
Word `i = j + 1`. -/
def Obligations.ClosedFormsOfTheSums : Prop :=
  (∀ (x : Accs) (vs : List Word) (n : Nat), vs.length = n →
    (x.absorbAll vs).a.toNat =
      (x.a.toNat + ∑ j ∈ Finset.range n, (vs.getD j 0).toNat) % 2 ^ 64 ∧
    (x.absorbAll vs).b.toNat =
      (x.b.toNat + n * x.a.toNat
        + ∑ j ∈ Finset.range n, (n - (j + 1) + 1) * (vs.getD j 0).toNat) % 2 ^ 64 ∧
    (x.absorbAll vs).c.toNat =
      (x.c.toNat + n * x.b.toNat + (n + 1).choose 2 * x.a.toNat
        + ∑ j ∈ Finset.range n, (n - (j + 1) + 2).choose 2 * (vs.getD j 0).toNat) % 2 ^ 64 ∧
    (x.absorbAll vs).d.toNat =
      (x.d.toNat + n * x.c.toNat + (n + 1).choose 2 * x.b.toNat + (n + 2).choose 3 * x.a.toNat
        + ∑ j ∈ Finset.range n, (n - (j + 1) + 3).choose 3 * (vs.getD j 0).toNat) % 2 ^ 64) ∧
  (∀ (v : Word) (n : Nat),
    (Accs.zero.absorbAll (List.replicate n v)).a.toNat = n * v.toNat % 2 ^ 64 ∧
    (Accs.zero.absorbAll (List.replicate n v)).b.toNat = (n + 1).choose 2 * v.toNat % 2 ^ 64 ∧
    (Accs.zero.absorbAll (List.replicate n v)).c.toNat = (n + 2).choose 3 * v.toNat % 2 ^ 64 ∧
    (Accs.zero.absorbAll (List.replicate n v)).d.toNat = (n + 3).choose 4 * v.toNat % 2 ^ 64)

/-- R85: from the zero start, the exact sums of `n` largest Words reach 2^64 first at these `n`, and no Words of that
number reach it sooner. -/
def Obligations.SumsWrapFirstAt : Prop :=
  (∀ n : Nat, 2 ^ 64 ≤ (exactSums (List.replicate n 0xFFFFFFFF)).d ↔ 566 ≤ n) ∧
  (∀ n : Nat, 2 ^ 64 ≤ (exactSums (List.replicate n 0xFFFFFFFF)).c ↔ 2953 ≤ n) ∧
  (∀ n : Nat, 2 ^ 64 ≤ (exactSums (List.replicate n 0xFFFFFFFF)).b ↔ 92682 ≤ n) ∧
  (∀ n : Nat, 2 ^ 64 ≤ (exactSums (List.replicate n 0xFFFFFFFF)).a ↔ 4294967298 ≤ n) ∧
  (∀ vs : List Word,
    (exactSums vs).a ≤ (exactSums (List.replicate vs.length 0xFFFFFFFF)).a ∧
    (exactSums vs).b ≤ (exactSums (List.replicate vs.length 0xFFFFFFFF)).b ∧
    (exactSums vs).c ≤ (exactSums (List.replicate vs.length 0xFFFFFFFF)).c ∧
    (exactSums vs).d ≤ (exactSums (List.replicate vs.length 0xFFFFFFFF)).d) ∧
  (∀ vs : List Word, vs.length < 566 →
    (exactSums vs).a < 2 ^ 64 ∧ (exactSums vs).b < 2 ^ 64 ∧ (exactSums vs).c < 2 ^ 64 ∧ (exactSums vs).d < 2 ^ 64)

/-! ### Control, frames, reset and invariants -/

/-- R107: while DONE = 1 every command but CLR has no effect, and is consumed all the same. -/
def Obligations.DoneStateDropsCommands : Prop :=
  (∀ i s, s.block.done = true → i ≠ .clr → exec i s = .next s) ∧
  (∀ bl cw rest, bl.done = true → decode cw ≠ .clr → step ⟨bl, .accept cw :: rest⟩ = .next ⟨bl, rest⟩)

/-- R15, R98: what each event does to DONE, in every state. -/
def Obligations.DoneFlagTransitions : Prop :=
  (∀ s, ∃ t, exec .clr s = .next t ∧ t.block.done = false) ∧
  (∀ s, ∃ t, exec .finish s = .next t ∧ t.block.done = true) ∧
  (∀ i s, i ≠ .clr → i ≠ .finish → ∃ t, exec i s = .next t ∧ t.block.done = s.block.done) ∧
  (∀ bl rest, ∃ t, step ⟨bl, .reset :: rest⟩ = .next t ∧ t.block.done = false)

/-- R12: the only commands that can change an accumulator: CLR, LDACC of that accumulator while DONE = 0, and a data
command that completes a group while DONE = 0. END changes none, and no command touches the host's list. -/
def Obligations.WritersOfTheAccumulators : Prop :=
  ∀ i s, ∃ t, exec i s = .next t ∧ t.inputs = s.inputs ∧
    ∀ q, t.block.accs.read q ≠ s.block.accs.read q →
      i = .clr ∨ (s.block.done = false ∧ ∃ imm64, i = .ldacc q imm64) ∨
      (s.block.done = false ∧ isData i = true ∧ 4 ≤ s.block.pend.length + (bytesOf i).length)

/-- R13, R67: the four accumulators are distinct, so loads of two of them may come in either order. -/
def Obligations.LoadsOfDistinctAccumulatorsCommute : Prop :=
  ∀ (bl : Block) (r q : AccName) (v w : Acc64), r ≠ q →
    ∃ t, runCommands [.ldacc r v, .ldacc q w] bl = .next t ∧ runCommands [.ldacc q w, .ldacc r v] bl = .next t ∧
      (bl.done = false → t.block.accs.read r = v ∧ t.block.accs.read q = w)

/-- R96, R97: what the ports show. -/
def Obligations.PortsShowTheHeldResult : Prop :=
  ∀ bl : Block,
    bl.obs.1 = bl.done ∧
    (bl.done = true → bl.obs = (true, some ⟨bl.accs.a, bl.accs.b, bl.accs.c, bl.accs.d⟩)) ∧
    (bl.done = false → bl.obs = (false, none))

/-- R96, R97, R107: the held Result, and the whole block, stay until a CLR or a reset event. -/
def Obligations.ResultIsHeldUntilRestart : Prop :=
  ∀ (bl : Block) (events : List Event), bl.done = true → (∀ e ∈ events, e.restarts = false) →
    ∃ t, runAll (State.facing bl events) = .next t ∧ t.block = bl ∧ t.block.obs = (true, some bl.accs)

/-- R96, R120: from the RUN state, no sequence of events without an END shows anything of the running sums. -/
def Obligations.NothingIsShownWithoutEnd : Prop :=
  ∀ (bl : Block) (events : List Event), bl.done = false →
    (∀ cw, Event.accept cw ∈ events → decode cw ≠ .finish) →
    ∃ t, runAll (State.facing bl events) = .next t ∧ t.block.obs = (false, none)

/-- R65, R125: after a CLR or a reset event nothing depends on the state before it. -/
def Obligations.RestartForgetsThePast : Prop :=
  ∀ (e : Event) (bl bl' : Block) (events : List Event), e.restarts = true →
    runAll (State.facing bl (e :: events)) = runAll (State.facing bl' (e :: events))

/-- R37: CLR, END and LDACC with the same operands are idempotent; the data commands are not. -/
def Obligations.WhichCommandsAreIdempotent : Prop :=
  (∀ i s t, isData i = false → exec i s = .next t → exec i t = .next t) ∧
  (∃ imm8 s t, exec (.putb imm8) s = .next t ∧ exec (.putb imm8) t ≠ .next t) ∧
  (∃ imm32 s t, exec (.putw imm32) s = .next t ∧ exec (.putw imm32) t ≠ .next t)

/-- R22: the state after reset, and that CLR gives the same block. -/
def Obligations.ResetStateIsTheClearedState : Prop :=
  State.reset.block.accs.a = 0 ∧ State.reset.block.accs.b = 0 ∧ State.reset.block.accs.c = 0 ∧
  State.reset.block.accs.d = 0 ∧ State.reset.block.pend = [] ∧ State.reset.block.done = false ∧
  State.reset.block.obs = (false, none) ∧
  (∀ s, exec .clr s = .next ⟨State.reset.block, s.inputs⟩)

/-- R125: the reset event, whatever the state was, gives the state after CLR, and no command is accepted while the reset
is asserted. -/
def Obligations.ResetEventRestoresTheResetState : Prop :=
  (∀ bl rest, step ⟨bl, .reset :: rest⟩ = .next ⟨⟨⟨0, 0, 0, 0⟩, [], false⟩, rest⟩) ∧
  (∀ bl rest, step ⟨bl, .reset :: rest⟩ = exec .clr ⟨bl, rest⟩) ∧
  (∀ (e : Edge) (cw : CmdWord), e.rst = true → e.event? ≠ some (.accept cw))

/-- R110: no command faults, traps or is refused, in any state and with any operand; nor does a step or a run. -/
def Obligations.NothingEverStops : Prop :=
  (∀ i s, ∃ t, exec i s = .next t) ∧ (∀ s, ∃ t, step s = .next t) ∧
  (∀ n s, ∃ t, Sys2Proof.core.run n s = .next t)

/-- R23 at reset. -/
def Obligations.InvariantAtReset : Prop := State.reset.Inv

/-- R23: every step keeps the invariant, from every state that meets it. -/
def Obligations.StepKeepsTheInvariant : Prop := ∀ s t : State, s.Inv → step s = .next t → t.Inv

/-- R23: every state reachable from the reset event has at most three pending bytes, and none while DONE = 1. -/
def Obligations.ReachableStatesMeetTheInvariant : Prop :=
  ∀ events : List Event, ∃ t, runAll (State.facing State.reset.block events) = .next t ∧
    t.block.pend.length ≤ 3 ∧ (t.block.done = true → t.block.pend = [])

/-- R24: every block that R23 allows is reached, from any block, by commands alone. -/
def Obligations.EveryAllowedStateIsReachable : Prop :=
  ∀ target start : Block, target.Inv → ∃ cmds, runCommands cmds start = .next ⟨target, []⟩

/-! ### The contract function and its laws (42_finish_result.md) -/

/-- R99 against R75 and R35: the contract's loop is ABSORB over the Words of the input. -/
def Obligations.FoldAbsorbsTheWords : Prop :=
  ∀ (s : Accs) (data : List Byte), s.fold data = s.absorbAll (wordsOf data)

/-- R35: the input is its complete groups, each the little-endian bytes of a Word, and then the trailing group. -/
def Obligations.GroupsPartitionTheInput : Prop :=
  ∀ data : List Byte,
    (wordsOf data).length = data.length / 4 ∧ (tailOf data).length = data.length % 4 ∧
    data = (wordsOf data).flatMap lanes ++ tailOf data

/-- R67: CLR and then LDACC of distinct accumulators, in any order, leaves the seed. -/
def Obligations.SeedingLoadsTheAccumulators : Prop :=
  ∀ (bl : Block) (loads : List (AccName × Acc64)), (loads.map Prod.fst).Nodup →
    ∃ x : Accs, runCommands (.clr :: loads.map (fun p => .ldacc p.1 p.2)) bl = .next ⟨⟨x, [], false⟩, []⟩ ∧
      (∀ p ∈ loads, x.read p.1 = p.2) ∧ (∀ r, r ∉ loads.map Prod.fst → x.read r = 0)

/-- R35, R36, R77, R78, R99: in the RUN state at phase 0, data commands leave the fold of the bytes they carry and keep the
trailing group pending. -/
def Obligations.StreamedBytesAreFolded : Prop :=
  ∀ (x : Accs) (cmds : List Instr), cmds.all isData = true →
    runCommands cmds ⟨x, [], false⟩ =
      .next ⟨⟨x.fold (streamOf cmds), tailOf (streamOf cmds), false⟩, []⟩

/-- R100: from any state, a well-formed computation shows the fold of its bytes from its seed; `compute` from the zero
seed; after reset the leading CLR may be omitted. -/
def Obligations.ComputationShowsTheChecksum : Prop :=
  (∀ bl cws loads data, computation? (cws.map decode) = some (loads, data) →
    ∃ t, runAll (State.facing bl (acceptAll cws)) = .next t ∧ t.block.done = true ∧
      t.block.obs = (true, some ((Accs.ofLoads loads).fold data))) ∧
  (∀ bl cws data, computation? (cws.map decode) = some ([], data) →
    ∃ t, runAll (State.facing bl (acceptAll cws)) = .next t ∧ t.block.obs = (true, some (compute data))) ∧
  (∀ cws loads data, afterClear? (cws.map decode) = some (loads, data) →
    ∃ t, runAll (State.facing State.reset.block (acceptAll cws)) = .next t ∧ t.block.done = true ∧
      t.block.obs = (true, some ((Accs.ofLoads loads).fold data)))

/-- R106: a command sequence is a well-formed sequence of computations exactly when it is one or more well-formed
computations one after another; directly after a reset event the first of them may omit its CLR. -/
def Obligations.ComputationsFollowOneAnother : Prop :=
  (∀ cmds comps, computations? cmds = some comps ↔
    ∃ parts : List (List Instr), parts ≠ [] ∧ parts.flatten = cmds ∧ parts.map computation? = comps.map some) ∧
  (∀ cmds comps, computationsAfterReset? cmds = some comps ↔
    ∃ (first : List Instr) (parts : List (List Instr)) (comp : SeededInput) (later : List SeededInput),
      comps = comp :: later ∧ first ++ parts.flatten = cmds ∧
      (computation? first = some comp ∨ afterClear? first = some comp) ∧ parts.map computation? = later.map some)

/-- R100 and R106: in a well-formed sequence of computations, from any state, the ports show after each END the fold of
that END's own computation, from its own seed; the first END is that of the first computation. The sequence may also
follow a reset event, and then omit its first CLR. -/
def Obligations.EachComputationShowsItsChecksum : Prop :=
  (∀ bl cws comps, computations? (cws.map decode) = some comps →
    comps.length = (cws.map decode).count .finish ∧ (cws.map decode).getLast? = some .finish ∧
    ∀ before cw after, cws = before ++ cw :: after → decode cw = .finish →
      ∃ t comp, comps[(before.map decode).count .finish]? = some comp ∧
        runAll (State.facing bl (acceptAll (before ++ [cw]))) = .next t ∧
        t.block.obs = (true, some ((Accs.ofLoads comp.1).fold comp.2))) ∧
  (∀ bl cws comps, computationsAfterReset? (cws.map decode) = some comps →
    comps.length = (cws.map decode).count .finish ∧ (cws.map decode).getLast? = some .finish ∧
    ∀ before cw after, cws = before ++ cw :: after → decode cw = .finish →
      ∃ t comp, comps[(before.map decode).count .finish]? = some comp ∧
        runAll (State.facing bl (.reset :: acceptAll (before ++ [cw]))) = .next t ∧
        t.block.obs = (true, some ((Accs.ofLoads comp.1).fold comp.2)))

/-- R101: trailing partial words never affect the result; in the block, streaming the bytes with and without them leaves
states that differ only in `pend`, which END empties. -/
def Obligations.TrailingGroupIsDropped : Prop :=
  (∀ data : List Byte, compute data = compute (data.take (4 * (data.length / 4)))) ∧
  compute [1, 0, 0, 0, 9, 9] = compute [1, 0, 0, 0] ∧
  (∀ (x : Accs) (cmds whole : List Instr), cmds.all isData = true → whole.all isData = true →
    streamOf whole = (streamOf cmds).take (4 * ((streamOf cmds).length / 4)) →
    ∃ y p, runCommands cmds ⟨x, [], false⟩ = .next ⟨⟨y, p, false⟩, []⟩ ∧
      runCommands whole ⟨x, [], false⟩ = .next ⟨⟨y, [], false⟩, []⟩ ∧
      exec .finish ⟨⟨y, p, false⟩, []⟩ = exec .finish ⟨⟨y, [], false⟩, []⟩)

/-- R102: input shorter than four bytes gives (0, 0, 0, 0). -/
def Obligations.ShortInputGivesZero : Prop :=
  compute [] = ⟨0, 0, 0, 0⟩ ∧ ∀ data : List Byte, data.length < 4 → compute data = ⟨0, 0, 0, 0⟩

/-- R104: chunking, in the contract and in the block, for a first chunk of whole groups; without that condition it
fails. -/
def Obligations.ChunksCarryForward : Prop :=
  (∀ (s : Accs) (d1 d2 : List Byte), 4 ∣ d1.length → s.fold (d1 ++ d2) = (s.fold d1).fold d2) ∧
  (∀ d1 d2 : List Byte, 4 ∣ d1.length → compute (d1 ++ d2) = (compute d1).fold d2) ∧
  (∀ (bl : Block) (cws1 cws2 : List CmdWord) (d1 d2 : List Byte) (loads : List (AccName × Acc64)) (t1 : State),
    4 ∣ d1.length → computation? (cws1.map decode) = some ([], d1) →
    runAll (State.facing bl (acceptAll cws1)) = .next t1 →
    computation? (cws2.map decode) = some (loads, d2) → t1.block.obs.2 = some (Accs.ofLoads loads) →
    ∃ t2, runAll (State.facing t1.block (acceptAll cws2)) = .next t2 ∧
      t2.block.obs = (true, some (compute (d1 ++ d2)))) ∧
  (∃ d1 d2 : List Byte, compute (d1 ++ d2) ≠ (compute d1).fold d2)

/-- R105: data commands that carry the same bytes, cut in any way and with any ignored bits, lead to the same state;
with any commands in front of them and behind them. -/
def Obligations.WidthsMakeNoDifference : Prop :=
  ∀ (bl : Block) (before after cws1 cws2 : List CmdWord),
    (cws1.map decode).all isData = true → (cws2.map decode).all isData = true →
    streamOf (cws1.map decode) = streamOf (cws2.map decode) →
    runAll (State.facing bl (acceptAll (before ++ cws1 ++ after))) =
      runAll (State.facing bl (acceptAll (before ++ cws2 ++ after)))

/-! ### The reference pipeline (41_data_ingest.md) -/

/-- R88, as the model writes it: the data path of the reference pipeline alone, without the control that interlocks
commands with it (the model's choice, notes/assumptions/8.md). With Words entering in any cycles, the drained pipeline
holds what ABSORB makes of the Words in their order, and nothing is in flight. -/
def Obligations.PipelineMeetsAbsorb : Prop :=
  ∀ (x : Accs) (entering : List (Option Word)),
    ((Pipe.empty x).cycles entering).drain = Pipe.empty (x.absorbAll (entering.filterMap id))

/-! ### The assembler (30_encoding.md) -/

/-- R55: a statement is rejected exactly when a number in it does not fit its field. -/
def Obligations.AssemblerRejectsWhatDoesNotFit : Prop :=
  (∀ n, RawCmd.toInstr? (.putb n) = none ↔ 256 ≤ n) ∧
  (∀ n, RawCmd.toInstr? (.putw n) = none ↔ 2 ^ 32 ≤ n) ∧
  (∀ r n, RawCmd.toInstr? (.ldacc r n) = none ↔ 4 ≤ r ∨ 2 ^ 64 ≤ n) ∧
  (∀ st : Stmt, instrsOf? st.expand = none ↔ ∃ raw ∈ st.expand, raw.toInstr? = none)

/-- R56: COMPUTE is the document's `compute` as one line: its commands run, from any state, to the Result. -/
def Obligations.ComputeLineRunsCompute : Prop :=
  ∀ (bl : Block) (data : List Byte), ∃ cmds,
    instrsOf? (Stmt.compute (data.map BitVec.toNat)).expand = some cmds ∧
    runCommands cmds bl = .next ⟨⟨compute data, [], true⟩, []⟩

/-- R56: SEED and LDA, LDB, LDC, LDD are LDACC of the accumulators they name, in the order shown. -/
def Obligations.SeedLinesLoadTheAccumulators : Prop :=
  ∀ a b c d : Acc64,
    instrsOf? (Stmt.seed a.toNat b.toNat c.toNat d.toNat).expand =
      some [.ldacc .a a, .ldacc .b b, .ldacc .c c, .ldacc .d d] ∧
    instrsOf? (Stmt.lda a.toNat).expand = some [.ldacc .a a] ∧
    instrsOf? (Stmt.ldb b.toNat).expand = some [.ldacc .b b] ∧
    instrsOf? (Stmt.ldc c.toNat).expand = some [.ldacc .c c] ∧
    instrsOf? (Stmt.ldd d.toNat).expand = some [.ldacc .d d]
end

