-- ==== Sys2Proof/Laws/Config.lean ====
section
/-! SUPPORT. The parameters agree with the word types and with each other (00_scope.md R4, R5). -/

namespace Sys2Proof.Laws

theorem word_width : Word = BitVec Config.wordBits := rfl
theorem acc_width : Acc64 = BitVec Config.accBits := rfl
theorem cmd_width : CmdWord = BitVec Config.cmdBits := rfl
theorem word_bytes : Byte = BitVec (Config.wordBits / Config.wordBytes) := rfl
theorem result_width : Config.accCount * Config.accBits = Config.resultBits := rfl
theorem command_width : Config.opBits + Config.dataBits = Config.cmdBits := rfl

end Sys2Proof.Laws
end

