-- ==== Sys2Proof/Laws/Decode.lean ====
section
/-! SUPPORT. Small lemmas about bit fields and the decoding of each operation code. -/

namespace Sys2Proof

/-- A slice is a quotient and a remainder (00_scope.md R6). -/
theorem field_toNat {n : Nat} (lo width : Nat) (v : BitVec n) :
    (field lo width v).toNat = v.toNat / 2 ^ lo % 2 ^ width := by
  simp [field, BitVec.extractLsb'_toNat, Nat.shiftRight_eq_div_pow]

theorem opField_toNat (cw : CmdWord) : (opField cw).toNat = cw.toNat / 2 ^ 64 := by
  rw [opField, field_toNat]
  have := cw.isLt
  omega

theorem accOfBits_accNumber (r : AccName) : accOfBits (accNumber r) = r := by
  cases r <;> rfl

theorem cmdWord_toNat (op : BitVec 3) (data : BitVec 64) :
    (cmdWord op data).toNat = op.toNat * 2 ^ 64 + data.toNat := by
  rw [cmdWord, BitVec.toNat_append, ← Nat.shiftLeft_add_eq_or_of_lt data.isLt, Nat.shiftLeft_eq]

/-- A command word is its operation code and its payload (30_encoding.md R47). -/
theorem cmdWord_fields (cw : CmdWord) : cmdWord (opField cw) (dataField cw) = cw := by
  apply BitVec.eq_of_toNat_eq
  rw [cmdWord_toNat, opField_toNat, dataField, field_toNat]
  omega

theorem cmdWord_inj {o p : BitVec 3} {a b : BitVec 64} (h : cmdWord o a = cmdWord p b) : o = p ∧ a = b := by
  have h' := congrArg BitVec.toNat h
  rw [cmdWord_toNat, cmdWord_toNat] at h'
  have ha := a.isLt
  have hb := b.isLt
  exact ⟨BitVec.eq_of_toNat_eq (by omega), BitVec.eq_of_toNat_eq (by omega)⟩

/-- A mask over a command word is a mask over each of its two fields. -/
theorem cmdWord_and (o p : BitVec 3) (a b : BitVec 64) :
    cmdWord o a &&& cmdWord p b = cmdWord (o &&& p) (a &&& b) := by
  refine BitVec.eq_of_getElem_eq fun i hi => ?_
  unfold cmdWord
  rw [BitVec.getElem_and, BitVec.getElem_append, BitVec.getElem_append, BitVec.getElem_append]
  split <;> simp

theorem opField_cmdWord (o : BitVec 3) (d : BitVec 64) : opField (cmdWord o d) = o := by
  apply BitVec.eq_of_toNat_eq
  rw [opField_toNat, cmdWord_toNat]
  have := d.isLt
  omega

/-- A payload field at bit 0 reads the payload alone. -/
theorem field_cmdWord (w : Nat) (hw : w ≤ 64) (o : BitVec 3) (d : BitVec 64) :
    field 0 w (cmdWord o d) = d.setWidth w := by
  apply BitVec.eq_of_toNat_eq
  have h : (2 : Nat) ^ 64 = 2 ^ w * 2 ^ (64 - w) := by rw [← pow_add]; congr 1; omega
  rw [field_toNat, cmdWord_toNat, BitVec.toNat_setWidth, pow_zero, Nat.div_one, h, ← mul_assoc,
    mul_comm o.toNat, mul_assoc, Nat.mul_add_mod]

theorem laneOf_toNat (k : Nat) (w : Word) : (laneOf k w).toNat = w.toNat / 2 ^ (8 * k) % 256 := by
  rw [laneOf, field_toNat]
  rfl

end Sys2Proof
end

