-- ==== Sys2Proof/Laws/State.lean ====
section
/-! SUPPORT. One lemma per field per update of the state, so that no proof unfolds a record update. -/

namespace Sys2Proof.Machine

@[simp] theorem State.withBlock_block (s : State) (bl : Block) : (s.withBlock bl).block = bl := rfl
@[simp] theorem State.withBlock_inputs (s : State) (bl : Block) : (s.withBlock bl).inputs = s.inputs := rfl
@[simp] theorem State.withBlock_self (s : State) : s.withBlock s.block = s := rfl
@[simp] theorem State.resetEvent_block (s : State) : s.resetEvent.block = Block.reset := rfl
@[simp] theorem State.resetEvent_inputs (s : State) : s.resetEvent.inputs = s.inputs := rfl
@[simp] theorem State.present_block (s : State) (cw : CmdWord) : (s.present cw).block = s.block := rfl
@[simp] theorem State.present_inputs (s : State) (cw : CmdWord) :
    (s.present cw).inputs = .accept cw :: s.inputs := rfl
@[simp] theorem State.facing_block (bl : Block) (es : List Event) : (State.facing bl es).block = bl := rfl
@[simp] theorem State.facing_inputs (bl : Block) (es : List Event) : (State.facing bl es).inputs = es := rfl
@[simp] theorem State.clocked_block (s : State) (edges : List Edge) : (s.clocked edges).block = s.block := rfl
@[simp] theorem State.clocked_inputs (s : State) (edges : List Edge) :
    (s.clocked edges).inputs = s.inputs ++ edges.filterMap Edge.event? := rfl

@[simp] theorem Block.setPend_accs (bl : Block) (p : List Byte) : (bl.setPend p).accs = bl.accs := rfl
@[simp] theorem Block.setPend_pend (bl : Block) (p : List Byte) : (bl.setPend p).pend = p := rfl
@[simp] theorem Block.setPend_done (bl : Block) (p : List Byte) : (bl.setPend p).done = bl.done := rfl
@[simp] theorem Block.setDone_accs (bl : Block) (b : Bool) : (bl.setDone b).accs = bl.accs := rfl
@[simp] theorem Block.setDone_pend (bl : Block) (b : Bool) : (bl.setDone b).pend = bl.pend := rfl
@[simp] theorem Block.setDone_done (bl : Block) (b : Bool) : (bl.setDone b).done = b := rfl
@[simp] theorem Block.loadAcc_accs (bl : Block) (r : AccName) (v : Acc64) :
    (bl.loadAcc r v).accs = bl.accs.write r v := rfl
@[simp] theorem Block.loadAcc_pend (bl : Block) (r : AccName) (v : Acc64) : (bl.loadAcc r v).pend = bl.pend := rfl
@[simp] theorem Block.loadAcc_done (bl : Block) (r : AccName) (v : Acc64) : (bl.loadAcc r v).done = bl.done := rfl
@[simp] theorem Block.clear_eq (bl : Block) : bl.clear = Block.reset := rfl
@[simp] theorem Block.endInput_accs (bl : Block) : bl.endInput.accs = bl.accs := rfl
@[simp] theorem Block.endInput_pend (bl : Block) : bl.endInput.pend = [] := rfl
@[simp] theorem Block.endInput_done (bl : Block) : bl.endInput.done = true := rfl
@[simp] theorem Block.reset_accs : Block.reset.accs = Accs.zero := rfl
@[simp] theorem Block.reset_pend : Block.reset.pend = [] := rfl
@[simp] theorem Block.reset_done : Block.reset.done = false := rfl

end Sys2Proof.Machine
end

