-- ==== Sys2Proof/Laws/Ops.lean ====
section
/-! SUPPORT. One lemma per shared operation that says everything it can do, the equation of every command and of every
kind of step, and the run of a list of events. Proofs cite these instead of unfolding the operations. -/

namespace Sys2Proof.Machine

/-- An accumulator reads as what was last written to it, and the others are not written (10_state.md R13). -/
theorem Accs.read_write (x : Accs) (r q : AccName) (v : Acc64) :
    (x.write r v).read q = if q = r then v else x.read q := by
  cases r <;> cases q <;> rfl

/-- ABSORB written out: each line with the new value of the line before it (41_data_ingest.md R75). -/
theorem Accs.absorb_eq (x : Accs) (v : Word) :
    x.absorb v = ⟨x.a + zext64 v, x.b + (x.a + zext64 v), x.c + (x.b + (x.a + zext64 v)),
      x.d + (x.c + (x.b + (x.a + zext64 v)))⟩ := rfl

/-- Everything `takeInput` can do. -/
theorem State.takeInput_eq (bl : Block) (es : List Event) :
    State.takeInput ⟨bl, es⟩ = es.head?.map (fun e => (e, ⟨bl, es.tail⟩)) := by
  cases es <;> rfl

/-- Everything `whenRun` can do. -/
theorem Block.whenRun_cases (bl : Block) (effect : Block → Block) :
    (bl.done = true ∧ bl.whenRun effect = bl) ∨ (bl.done = false ∧ bl.whenRun effect = effect bl) := by
  unfold Block.whenRun
  cases h : bl.done <;> simp

theorem Block.whenRun_done {bl : Block} (h : bl.done = true) (effect : Block → Block) :
    bl.whenRun effect = bl := by simp [Block.whenRun, h]

theorem Block.whenRun_run {bl : Block} (h : bl.done = false) (effect : Block → Block) :
    bl.whenRun effect = effect bl := by simp [Block.whenRun, h]

/-- PUSHBYTE of the fourth byte of a group. -/
theorem Block.pushByte_completes {bl : Block} {p0 p1 p2 : Byte} (h : bl.pend = [p0, p1, p2]) (b : Byte) :
    bl.pushByte b = ⟨bl.accs.absorb (groupWord p0 p1 p2 b), [], bl.done⟩ := by
  simp [Block.pushByte, h, Block.setPend]

/-- PUSHBYTE of any other byte. -/
theorem Block.pushByte_appends {bl : Block} (h : bl.pend.length ≠ 3) (b : Byte) :
    bl.pushByte b = ⟨bl.accs, bl.pend ++ [b], bl.done⟩ := by
  unfold Block.pushByte
  split
  · simp_all
  · rfl

/-- Everything PUSHBYTE can do. -/
theorem Block.pushByte_cases (bl : Block) (b : Byte) :
    (∃ p0 p1 p2, bl.pend = [p0, p1, p2] ∧
      bl.pushByte b = ⟨bl.accs.absorb (groupWord p0 p1 p2 b), [], bl.done⟩) ∨
    (bl.pend.length ≠ 3 ∧ bl.pushByte b = ⟨bl.accs, bl.pend ++ [b], bl.done⟩) := by
  by_cases h : bl.pend.length = 3
  · obtain ⟨p0, p1, p2, hp⟩ := List.length_eq_three.mp h
    exact .inl ⟨p0, p1, p2, hp, Block.pushByte_completes hp b⟩
  · exact .inr ⟨h, Block.pushByte_appends h b⟩

theorem Block.pushByte_done (bl : Block) (b : Byte) : (bl.pushByte b).done = bl.done := by
  obtain ⟨_, _, _, _, h⟩ | ⟨_, h⟩ := Block.pushByte_cases bl b <;> rw [h]

theorem Block.pushByte_pend_length {bl : Block} (h : bl.pend.length ≤ 3) (b : Byte) :
    (bl.pushByte b).pend.length ≤ 3 := by
  obtain ⟨_, _, _, _, he⟩ | ⟨hn, he⟩ := Block.pushByte_cases bl b <;> rw [he] <;> simp
  omega

theorem Block.pushWord_done (bl : Block) (w : Word) : (bl.pushWord w).done = bl.done := by
  simp [Block.pushWord, Block.pushByte_done]

/-- PUSHBYTE of a sequence of bytes, the first first. -/
def Block.pushAll (bl : Block) (bs : List Byte) : Block := bs.foldl Block.pushByte bl

theorem Block.pushAll_nil (bl : Block) : bl.pushAll [] = bl := rfl

theorem Block.pushAll_cons (bl : Block) (b : Byte) (bs : List Byte) :
    bl.pushAll (b :: bs) = (bl.pushByte b).pushAll bs := rfl

theorem Block.pushAll_append (bl : Block) (bs cs : List Byte) :
    bl.pushAll (bs ++ cs) = (bl.pushAll bs).pushAll cs := List.foldl_append

/-- PUTW's four PUSHBYTE are those of its lanes (41_data_ingest.md R78). -/
theorem Block.pushWord_eq (bl : Block) (w : Word) : bl.pushWord w = bl.pushAll (lanes w) := rfl

theorem Block.pushAll_done (bl : Block) (bs : List Byte) : (bl.pushAll bs).done = bl.done := by
  induction bs generalizing bl with
  | nil => rfl
  | cons b bs ih => rw [Block.pushAll_cons, ih, Block.pushByte_done]

theorem Block.pushAll_pend_length {bl : Block} (h : bl.pend.length ≤ 3) (bs : List Byte) :
    (bl.pushAll bs).pend.length ≤ 3 := by
  induction bs generalizing bl with
  | nil => exact h
  | cons b bs ih => exact ih (Block.pushByte_pend_length h b)

/-- The effect of a command on the block alone. -/
def Block.apply (bl : Block) : Instr → Block
  | .clr => Block.reset
  | .putb imm8 => bl.whenRun (·.pushByte imm8)
  | .putw imm32 => bl.whenRun (·.pushWord imm32)
  | .finish => bl.whenRun (·.endInput)
  | .ldacc r imm64 => bl.whenRun (·.loadAcc r imm64)

/-- Everything a command can do: it answers a next state, whose block its effect gives, and leaves the host alone. -/
theorem exec_eq (i : Instr) (s : State) : exec i s = .next (s.withBlock (s.block.apply i)) := by
  cases i <;> rfl

/-- The effect of an event on the block alone. -/
def Block.react (bl : Block) : Event → Block
  | .reset => Block.reset
  | .accept cw => bl.apply (decode cw)

theorem step_nil (bl : Block) : step ⟨bl, []⟩ = .next ⟨bl, []⟩ := rfl

/-- Everything a step with an event to come can do. -/
theorem step_cons (bl : Block) (e : Event) (es : List Event) : step ⟨bl, e :: es⟩ = .next ⟨bl.react e, es⟩ := by
  cases e with
  | reset => rfl
  | accept cw => exact exec_eq (decode cw) ⟨bl, es⟩

/-- A run of as many steps as there are events at the head of the list. -/
theorem run_events (bl : Block) (es rest : List Event) :
    Sys2Proof.core.run es.length ⟨bl, es ++ rest⟩ = .next ⟨es.foldl Block.react bl, rest⟩ := by
  induction es generalizing bl with
  | nil => rfl
  | cons e es ih =>
    have h : Sys2Proof.core.step ⟨bl, e :: (es ++ rest)⟩ = .next ⟨bl.react e, es ++ rest⟩ := step_cons bl e _
    simp only [List.length_cons, List.cons_append, Host.Core.run, h]
    exact ih _

/-- Everything a run of all the host's events can do. -/
theorem runAll_facing (bl : Block) (es : List Event) :
    runAll (State.facing bl es) = .next ⟨es.foldl Block.react bl, []⟩ := by
  have h := run_events bl es []
  rw [List.append_nil] at h
  exact h

/-- Everything a run of accepted words can do. -/
theorem runAll_acceptAll (bl : Block) (cws : List CmdWord) :
    runAll (State.facing bl (acceptAll cws)) = .next ⟨(cws.map decode).foldl Block.apply bl, []⟩ := by
  rw [runAll_facing, acceptAll, List.foldl_map, List.foldl_map]
  rfl

/-- Data commands push the bytes they carry, whatever their widths (20_memory.md R34). -/
theorem foldl_apply_data {cmds : List Instr} (h : cmds.all isData = true) {bl : Block} (hr : bl.done = false) :
    cmds.foldl Block.apply bl = bl.pushAll (streamOf cmds) := by
  induction cmds generalizing bl with
  | nil => rfl
  | cons i cmds ih =>
    simp only [List.all_cons, Bool.and_eq_true] at h
    have step_data : bl.apply i = bl.pushAll (bytesOf i) := by
      cases i <;> simp_all [isData, Block.apply, Block.whenRun_run, bytesOf, Block.pushWord_eq]; rfl
    rw [List.foldl_cons, step_data, ih h.2 (by rw [Block.pushAll_done, hr]), streamOf, Block.pushAll_append]

end Sys2Proof.Machine
end

