-- ==== Sys2Proof/Laws/PerInstr.lean ====
section
/-! SUPPORT. A statement about every command, made per constructor. Family `EncodedRow`: some row of the opcode map has
the command's mnemonic and matches its canonical word (30_encoding.md R48, R58). -/

namespace Sys2Proof.Laws.EncodedRow

/-- A row of the opcode map with the command's mnemonic matches its canonical word. -/
def Statement (i : Instr) : Prop :=
  ∃ row ∈ opcodeRows, row.mnemonic = mnemonic i ∧ matchesRow row (encode i) = true

/-- A mask over the operation code alone reads the operation code alone. -/
theorem cmdWord_and_mask (op m : BitVec 3) (data : BitVec 64) :
    cmdWord op data &&& cmdWord m 0 = cmdWord (op &&& m) 0 := by
  rw [cmdWord_and, show data &&& 0 = 0 from BitVec.and_zero]

theorem clr : Statement .clr :=
  ⟨opcodeRows[0], by decide, rfl, decide_eq_true (cmdWord_and_mask 0 7 0)⟩

theorem putb (imm8 : Byte) : Statement (.putb imm8) :=
  ⟨opcodeRows[1], by decide, rfl, decide_eq_true (cmdWord_and_mask 1 7 (imm8.setWidth 64))⟩

theorem putw (imm32 : Word) : Statement (.putw imm32) :=
  ⟨opcodeRows[2], by decide, rfl, decide_eq_true (cmdWord_and_mask 2 7 (imm32.setWidth 64))⟩

theorem finish : Statement .finish :=
  ⟨opcodeRows[3], by decide, rfl, decide_eq_true (cmdWord_and_mask 3 7 0)⟩

theorem ldacc (r : AccName) (imm64 : Acc64) : Statement (.ldacc r imm64) := by
  refine ⟨opcodeRows[4], by decide, rfl, decide_eq_true ?_⟩
  have h : (1#1 ++ accNumber r) &&& (4 : BitVec 3) = 4 := by cases r <;> decide
  have key := cmdWord_and_mask (1#1 ++ accNumber r) 4 imm64
  rw [h] at key
  exact key

end Sys2Proof.Laws.EncodedRow
end

