-- ==== Sys2Proof/Laws/WellFormed.lean ====
section
/-! SUPPORT. Small lemmas about well-formed sequences of computations (42_finish_result.md R106). -/

namespace Sys2Proof

@[simp] theorem cutAfterEnd_nil : cutAfterEnd [] = [] := rfl

@[simp] theorem cutAfterEnd_finish (rest : List Instr) : cutAfterEnd (.finish :: rest) = [.finish] :: cutAfterEnd rest := rfl

/-- Cutting loses nothing: the parts one after another are the sequence. -/
theorem cutAfterEnd_flatten (cmds : List Instr) : (cutAfterEnd cmds).flatten = cmds := by
  induction cmds with
  | nil => rfl
  | cons i rest ih =>
    rw [cutAfterEnd]
    split
    · rw [List.flatten_cons, ih]; rfl
    · split <;> rename_i h <;> rw [h] at ih <;> simp_all

/-- A part without END in front of an END is cut off behind that END. -/
theorem cutAfterEnd_append {part : List Instr} (h : .finish ∉ part) (rest : List Instr) :
    cutAfterEnd (part ++ .finish :: rest) = (part ++ [.finish]) :: cutAfterEnd rest := by
  induction part with
  | nil => rfl
  | cons i part ih =>
    rw [List.mem_cons, not_or] at h
    rw [List.cons_append, cutAfterEnd, if_neg (Ne.symm h.1), ih h.2]
    rfl

/-- The parts are all well-formed computations exactly when each is, in order. -/
theorem eachComputation?_eq_some (parts : List (List Instr)) (comps : List SeededInput) :
    eachComputation? parts = some comps ↔ parts.map computation? = comps.map some := by
  induction parts generalizing comps with
  | nil => cases comps <;> simp [eachComputation?]
  | cons part parts ih =>
    cases comps with
    | nil => rw [eachComputation?]; split <;> simp_all
    | cons comp comps =>
      rw [eachComputation?, List.map_cons, List.map_cons, List.cons.injEq, ← ih]
      cases computation? part <;> cases eachComputation? parts <;> simp

end Sys2Proof
end

