-- ==== Sys2Proof/Tests/Slice0.lean ====
section
/-! SUPPORT. The model's own tests. Every expected value comes from 95_test_vectors.md (the vector is named) or from the
worked example of a rule. Below them, a witness for the hypotheses of every statement that has any. -/

namespace Sys2Proof.Tests

open Sys2Proof.Machine

/-- A block from numbers: A, B, C, D, the pending bytes and DONE. -/
def blk (a b c d : Nat) (pend : List Byte) (done : Bool) : Block :=
  ⟨⟨BitVec.ofNat 64 a, BitVec.ofNat 64 b, BitVec.ofNat 64 c, BitVec.ofNat 64 d⟩, pend, done⟩

/-- The block after one command, when it answers a next state. -/
def blockAfter (i : Instr) (bl : Block) : Option Block :=
  match exec i ⟨bl, []⟩ with
  | .next s => some s.block
  | .fault _ => none
  | .refused _ => none

/-! ### Well-formedness: each check refuses an ill-formed term -/

theorem test_wf_putb : RawCmd.wf (.putb 255) = true ∧ RawCmd.wf (.putb 256) = false := by decide
theorem test_wf_putw : RawCmd.wf (.putw 4294967295) = true ∧ RawCmd.wf (.putw 4294967296) = false := by decide
theorem test_wf_ldacc_register : RawCmd.wf (.ldacc 3 0) = true ∧ RawCmd.wf (.ldacc 4 0) = false := by decide
theorem test_wf_ldacc_value :
    RawCmd.wf (.ldacc 0 18446744073709551615) = true ∧ RawCmd.wf (.ldacc 0 18446744073709551616) = false := by decide
theorem test_raw_rejected : RawCmd.toInstr? (.putb 256) = none := by decide

/-- R106: a computation needs its CLR and its END, its loads before its data, and no register loaded twice. -/
theorem test_wf_computation :
    computation? [.clr, .ldacc .b 4, .putb 1, .finish] = some ([(.b, 4)], [1]) ∧
    computation? [.putb 1, .finish] = none ∧
    computation? [.clr, .putb 1] = none ∧
    computation? [.clr, .putb 1, .ldacc .b 4, .finish] = none ∧
    computation? [.clr, .ldacc .b 4, .ldacc .b 5, .finish] = none ∧
    computation? [.clr, .finish, .putb 1, .finish] = none := by decide

/-- R106: computations one after another; every one but the first after a reset event begins with its CLR, and each
ends with its END. -/
theorem test_wf_computations :
    computations? [.clr, .putb 1, .finish, .clr, .ldacc .b 4, .finish] = some [([], [1]), ([(.b, 4)], [])] ∧
    computations? [.clr, .putb 1, .finish, .putb 2, .finish] = none ∧
    computations? [.clr, .finish, .clr] = none ∧ computations? [] = none ∧
    computationsAfterReset? [.putb 1, .finish, .clr, .putb 2, .finish] = some [([], [1]), ([], [2])] ∧
    computationsAfterReset? [.clr, .putb 1, .finish] = some [([], [1])] ∧
    computationsAfterReset? [.putb 1, .finish, .putb 2, .finish] = none := by
  refine ⟨?_, ?_, ?_, ?_, ?_, ?_, ?_⟩ <;> decide

/-! ### Decoding, bit by bit from 30_encoding.md R47: three bits of op, then 64 of data -/

/-- E1 and E10: CLR, whatever the payload. -/
theorem test_decode_clr : decode (0b000#3 ++ 0xFFFFFFFFFFFFFFFF#64) = .clr ∧ decode (0b000#3 ++ 0#64) = .clr := by decide
/-- E2 and E11: PUTB and its low eight payload bits. -/
theorem test_decode_putb :
    decode (0b001#3 ++ 0x00000000000000AB#64) = .putb 0xAB ∧ decode (0b001#3 ++ 0xFFFFFFFFFFFFFF01#64) = .putb 1 := by
  decide
/-- E4 and E12: PUTW and its low 32 payload bits. -/
theorem test_decode_putw :
    decode (0b010#3 ++ 0x0000000012345678#64) = .putw 0x12345678 ∧
    decode (0b010#3 ++ 0xDEADBEEF00000001#64) = .putw 1 := by decide
/-- E5 and E13: END, whatever the payload. -/
theorem test_decode_end : decode (0b011#3 ++ 0#64) = .finish ∧ decode (0b011#3 ++ 1#64) = .finish := by decide
/-- E6 to E9: LDACC of each register, all 64 payload bits. -/
theorem test_decode_ldacc :
    decode (0b100#3 ++ 0xFFFFFFFFFFFFFFFF#64) = .ldacc .a 0xFFFFFFFFFFFFFFFF ∧
    decode (0b101#3 ++ 0x10#64) = .ldacc .b 0x10 ∧
    decode (0b110#3 ++ 5#64) = .ldacc .c 5 ∧ decode (0b111#3 ++ 1#64) = .ldacc .d 1 := by decide
/-- The table's bit numbering: the word 0x5_0000000000000010 of 67 bits (E7). -/
theorem test_decode_table_word : decodeTableWord 72 0x50000000000000010 = some (.ldacc .b 0x10) := by decide

/-! ### ABSORB -/

/-- V3, and that the old-value form (3, 2, 2, 2) is wrong. -/
theorem test_absorb_order : Accs.absorb ⟨1, 1, 1, 1⟩ 2 = ⟨3, 4, 5, 6⟩ := by decide
/-- V7: no sign extension. -/
theorem test_absorb_unsigned :
    Accs.absorb Accs.zero 0x80000000 = ⟨0x80000000, 0x80000000, 0x80000000, 0x80000000⟩ := by decide
/-- V9: all four additions wrap. -/
theorem test_absorb_wraps :
    Accs.absorb ⟨0xFFFFFFFFFFFFFFFF, 0xFFFFFFFFFFFFFFFF, 0xFFFFFFFFFFFFFFFF, 0xFFFFFFFFFFFFFFFF⟩ 0xFFFFFFFF =
      ⟨0xFFFFFFFE, 0xFFFFFFFD, 0xFFFFFFFC, 0xFFFFFFFB⟩ := by decide

/-! ### The commands -/

/-- V30: CLR in the middle of a computation. -/
theorem test_clr_run : blockAfter .clr (blk 3 4 5 6 [9, 9] false) = some (blk 0 0 0 0 [] false) := by decide
/-- V31: CLR of a held Result. -/
theorem test_clr_done : blockAfter .clr (blk 3 4 5 6 [] true) = some (blk 0 0 0 0 [] false) := by decide
/-- V12: the fourth byte of a group, and its byte order. -/
theorem test_putb_completes :
    blockAfter (.putb 0x12) (blk 0 0 0 0 [0x78, 0x56, 0x34] false) =
      some (blk 0x12345678 0x12345678 0x12345678 0x12345678 [] false) := by decide
/-- V40: a byte in the DONE state is dropped. -/
theorem test_putb_done : blockAfter (.putb 5) (blk 1 1 1 1 [] true) = some (blk 1 1 1 1 [] true) := by decide
/-- V17: PUTW at phase 3. -/
theorem test_putw_phase3 :
    blockAfter (.putw 0xDDCCBBAA) (blk 0 0 0 0 [0x11, 0x22, 0x33] false) =
      some (blk 0xAA332211 0xAA332211 0xAA332211 0xAA332211 [0xBB, 0xCC, 0xDD] false) := by decide
/-- V15: PUTW at phase 1. -/
theorem test_putw_phase1 :
    blockAfter (.putw 0xDDCCBBAA) (blk 0 0 0 0 [0x11] false) =
      some (blk 0xCCBBAA11 0xCCBBAA11 0xCCBBAA11 0xCCBBAA11 [0xDD] false) := by decide
/-- V35: END drops the tail and keeps the sums. -/
theorem test_end_drops_tail : blockAfter .finish (blk 1 1 1 1 [9, 9] false) = some (blk 1 1 1 1 [] true) := by decide
/-- V38: a second END has no effect. -/
theorem test_end_twice : blockAfter .finish (blk 1 1 1 1 [] true) = some (blk 1 1 1 1 [] true) := by decide
/-- V33: LDACC leaves `pend` and the other registers. -/
theorem test_ldacc_run :
    blockAfter (.ldacc .d 0) (blk 1 2 3 4 [0xAA, 0xBB] false) = some (blk 1 2 3 0 [0xAA, 0xBB] false) := by decide
/-- V34: LDACC has no effect on a held Result. -/
theorem test_ldacc_done : blockAfter (.ldacc .a 9) (blk 1 2 3 4 [] true) = some (blk 1 2 3 4 [] true) := by decide

/-! ### Ports, steps, the contract and the pipeline -/

/-- V34 and V30: what the ports show. -/
theorem test_obs :
    (blk 1 2 3 4 [] true).obs = (true, some ⟨1, 2, 3, 4⟩) ∧ (blk 3 4 5 6 [9, 9] false).obs = (false, none) := by decide
/-- V41: the reset event. -/
theorem test_reset_event : step ⟨blk 9 9 9 9 [0xEE] false, [.reset]⟩ = .next State.reset := rfl
/-- The first step from reset with E2 presented runs PUTB 0xAB. -/
theorem test_first_step : step (State.reset.withFetchWord 72 0x100000000000000AB) =
    .next ⟨blk 0 0 0 0 [0xAB] false, []⟩ := by rfl
/-- R46, R113: a reset at the edge of an acceptance wins. -/
theorem test_edge_reset_wins : Edge.event? ⟨true, true, true, 1, 5⟩ = some .reset := by decide
/-- S5: the two-word example with the literal that 90_conflicts.md C1 settles. -/
theorem test_compute_two_words : compute [1, 0, 0, 0, 2, 0, 0, 0] = ⟨3, 4, 5, 6⟩ := by decide
/-- V20b: a three-byte tail is dropped. -/
theorem test_compute_tail : compute [1, 0, 0, 0, 2, 0, 0] = ⟨1, 1, 1, 1⟩ := by decide
/-- The trace table of R88 for the Words 1 then 2: the rows of cycles 2 and 5. -/
theorem test_pipeline_trace :
    ((Pipe.empty Accs.zero).cycles [some 1, some 2]).accs = ⟨3, 1, 0, 0⟩ ∧
    ((Pipe.empty Accs.zero).cycles [some 1, some 2]).drain.accs = ⟨3, 4, 5, 6⟩ := by decide

/-! ### The assembler -/

/-- E4 as a line: hexadecimal, an underscore, blanks and a comment (R55). -/
theorem test_asm_putw :
    assembleLine? [' ', 'P', 'U', 'T', 'W', ' ', '0', 'x', '1', '2', '3', '4', '_', '5', '6', '7', '8', ' ', ';', 'E'] =
      some [.putw 0x12345678] := by decide
/-- The worked example of R66: LDACC B, 0x10. -/
theorem test_asm_ldacc :
    assembleLine? ['L', 'D', 'A', 'C', 'C', ' ', 'B', ',', ' ', '0', 'x', '1', '0'] = some [.ldacc .b 16] := by decide
/-- R55: a number that does not fit, and a mnemonic in lower case, are rejected. -/
theorem test_asm_rejects :
    assembleLine? ['P', 'U', 'T', 'B', ' ', '2', '5', '6'] = none ∧ assembleLine? ['c', 'l', 'r'] = none := by decide
/-- R56: COMPUTE 1 2. -/
theorem test_asm_compute :
    assembleLine? ['C', 'O', 'M', 'P', 'U', 'T', 'E', ' ', '1', ' ', '2'] = some [.clr, .putb 1, .putb 2, .finish] := by
  decide
/-- Two lines, CLR and END, as canonical words E1 and E5. -/
theorem test_asm_text :
    assemble? ['C', 'L', 'R', '\n', 'E', 'N', 'D'] = some [0x00000000000000000, 0x30000000000000000] := by decide

/-! ### Witnesses: states and operands that meet the hypotheses of the statements, clause by clause -/

theorem witness_DecodeByOperationCode :
    (0x0FFFFFFFFFFFFFFFF : CmdWord).toNat / 2 ^ 64 = 0 ∧ (0x10000000000000000 : CmdWord).toNat / 2 ^ 64 = 1 ∧
    (0x20000000000000000 : CmdWord).toNat / 2 ^ 64 = 2 ∧ (0x3FFFFFFFFFFFFFFFF : CmdWord).toNat / 2 ^ 64 = 3 ∧
    (0x40000000000000000 : CmdWord).toNat / 2 ^ 64 = 4 + (accNumber .a).toNat ∧
    (0x7FFFFFFFFFFFFFFFF : CmdWord).toNat / 2 ^ 64 = 4 + (accNumber .d).toNat := by decide

theorem witness_UnusedBitsHaveNoEffect :
    ((0x1FFFFFFFFFFFFFF01 : CmdWord) ^^^ 0x10000000000000001) &&& ~~~unusedMask (decode 0x1FFFFFFFFFFFFFF01) = 0 := by
  decide

theorem witness_PresentedWordRunsNext : decodeTableWord 72 0x30000000000000000 = some .finish := by decide

theorem witness_EdgeDecidesTheEvent :
    (⟨true, true, true, 0, 0⟩ : Edge).rst = true ∧
    ((⟨false, true, true, 0, 0⟩ : Edge).rst = false ∧ (⟨false, true, true, 0, 0⟩ : Edge).cmdValid = true ∧
      (⟨false, true, true, 0, 0⟩ : Edge).cmdReady = true) ∧
    ((⟨false, true, false, 0, 0⟩ : Edge).rst = false ∧ (⟨false, true, false, 0, 0⟩ : Edge).cmdReady = false) ∧
    ((⟨false, false, true, 0, 0⟩ : Edge).rst = false ∧ (⟨false, false, true, 0, 0⟩ : Edge).cmdValid = false) := by
  decide

/-- A host that waits one edge for the block. -/
def waitingHost : List Edge := [⟨false, true, false, 1, 7⟩, ⟨false, true, true, 1, 7⟩]

theorem witness_HeldCommandIsAccepted :
    holdsCommand waitingHost = true ∧ (∀ f ∈ waitingHost, f.rst = false) ∧
    (∃ f ∈ waitingHost, f.cmdReady = true) ∧ (waitingHost.head?.map Edge.cmdValid) = some true := by decide

theorem witness_ClrStartsAComputation :
    exec .clr ⟨blk 1 2 3 4 [] true, []⟩ = .next ⟨blk 0 0 0 0 [] false, []⟩ ∧
    (blk 1 2 3 4 [] true).done = true ∧ (⟨blk 0 0 0 0 [] false, []⟩ : State) ≠ ⟨blk 1 2 3 4 [] true, []⟩ ∧
    (0 : CmdWord).toNat / 2 ^ 64 = 0 := ⟨rfl, rfl, by decide, by decide⟩

theorem witness_LdaccLoadsOneAccumulator :
    (blk 1 2 3 4 [5] false).done = false ∧ (blk 1 2 3 4 [] true).done = true ∧
    exec (.ldacc .a 9) ⟨blk 1 2 3 4 [5] false, []⟩ = .next ⟨blk 9 2 3 4 [5] false, []⟩ ∧
    (0x60000000000000005 : CmdWord).toNat / 2 ^ 64 = 4 + (accNumber .c).toNat := ⟨rfl, rfl, rfl, by decide⟩

theorem witness_PutbSuppliesOneByte :
    ((blk 0 0 0 0 [1, 2, 3] false).done = false ∧ (blk 0 0 0 0 [1, 2, 3] false).pend = [1, 2, 3]) ∧
    ((blk 0 0 0 0 [1, 2] false).done = false ∧ (blk 0 0 0 0 [1, 2] false).pend.length ≠ 3) ∧
    (blk 0 0 0 0 [] true).done = true ∧ (0x1FFFFFFFFFFFFFFFF : CmdWord).toNat / 2 ^ 64 = 1 := by decide

theorem witness_PutwIsFourPutb :
    (blk 1 1 1 1 [] true).done = true ∧
    ((blk 0 0 0 0 [1, 2, 3] false).done = false ∧ (blk 0 0 0 0 [1, 2, 3] false).pend.length ≤ 3) ∧
    (0x2FFFFFFFFFFFFFFFF : CmdWord).toNat / 2 ^ 64 = 2 := by decide

theorem witness_PutwAtEveryPhase :
    ([] : List Byte).length ≤ 3 ∧ ([1] : List Byte).length ≤ 3 ∧ ([1, 2] : List Byte).length ≤ 3 ∧
    ([1, 2, 3] : List Byte).length ≤ 3 := by decide

theorem witness_EndHoldsTheResult :
    (blk 1 1 1 1 [9, 9] false).done = false ∧ (blk 1 1 1 1 [] true).done = true ∧
    (0x3FFFFFFFFFFFFFFFF : CmdWord).toNat / 2 ^ 64 = 3 := by decide

theorem witness_PushByteCompletesGroups :
    ((blk 0 0 0 0 [0x78, 0x56, 0x34] false).pend = [0x78, 0x56, 0x34] ∧
      (0x12345678 : Word).toNat =
        (0x78 : Byte).toNat + 256 * (0x56 : Byte).toNat + 65536 * (0x34 : Byte).toNat + 16777216 * (0x12 : Byte).toNat) ∧
    (blk 0 0 0 0 [1, 2] false).pend.length ≠ 3 ∧ (blk 0 0 0 0 [1, 2, 3] false).pend.length ≤ 3 := by decide

theorem witness_WordIsLittleEndian : 4 * 0 + 3 < ([2, 0, 0, 0] : List Byte).length := by decide

theorem witness_ClosedFormsOfTheSums : ([1, 2] : List Word).length = 2 := rfl

theorem witness_SumsWrapFirstAt : ([1, 2] : List Word).length < 566 := by decide

theorem witness_DoneStateDropsCommands :
    (blk 1 1 1 1 [] true).done = true ∧ (Instr.putb 5 ≠ .clr) ∧ decode 0x20000000000000005 ≠ .clr := by decide

theorem witness_DoneFlagTransitions : (Instr.putw 5 ≠ .clr) ∧ (Instr.putw 5 ≠ .finish) := by decide

theorem witness_WritersOfTheAccumulators :
    exec (.putb 4) ⟨blk 0 0 0 0 [1, 2, 3] false, []⟩ =
      .next ⟨blk 0x04030201 0x04030201 0x04030201 0x04030201 [] false, []⟩ ∧
    (blk 0x04030201 0x04030201 0x04030201 0x04030201 [] false).accs.read .c ≠ (blk 0 0 0 0 [1, 2, 3] false).accs.read .c :=
  ⟨rfl, by decide⟩

theorem witness_LoadsOfDistinctAccumulatorsCommute : AccName.a ≠ AccName.d ∧ (blk 1 2 3 4 [5] false).done = false := by
  decide

theorem witness_PortsShowTheHeldResult : (blk 1 2 3 4 [] true).done = true ∧ (blk 1 2 3 4 [] false).done = false := by
  decide

theorem witness_ResultIsHeldUntilRestart :
    (blk 1 2 3 4 [] true).done = true ∧
    ∀ e ∈ acceptAll [0x10000000000000001, 0x30000000000000000, 0x40000000000000009], e.restarts = false := by decide

theorem witness_NothingIsShownWithoutEnd :
    (blk 1 2 3 4 [] false).done = false ∧
    ∀ cw, Event.accept cw ∈ acceptAll [0x10000000000000001, 0x00000000000000000] → decode cw ≠ .finish := by
  refine ⟨rfl, fun cw h => ?_⟩
  simp only [acceptAll, List.map_cons, List.map_nil, List.mem_cons, Event.accept.injEq, List.not_mem_nil, or_false] at h
  rcases h with rfl | rfl <;> decide

theorem witness_RestartForgetsThePast :
    Event.restarts .reset = true ∧ Event.restarts (.accept 0x0FFFFFFFFFFFFFFFF) = true := by decide

theorem witness_WhichCommandsAreIdempotent :
    isData (.ldacc .c 5) = false ∧
    exec (.ldacc .c 5) ⟨blk 1 2 3 4 [] false, []⟩ = .next ⟨blk 1 2 5 4 [] false, []⟩ := ⟨rfl, rfl⟩

theorem witness_ResetEventRestoresTheResetState : (⟨true, true, true, 1, 5⟩ : Edge).rst = true := rfl

theorem witness_StepKeepsTheInvariant :
    (⟨blk 1 2 3 4 [1, 2, 3] false, [.accept 0x30000000000000000]⟩ : State).Inv ∧
    step ⟨blk 1 2 3 4 [1, 2, 3] false, [.accept 0x30000000000000000]⟩ = .next ⟨blk 1 2 3 4 [] true, []⟩ :=
  ⟨by decide, rfl⟩

theorem witness_EveryAllowedStateIsReachable :
    (blk 1 2 3 4 [7, 8, 9] false).Inv ∧ (blk 1 2 3 4 [] true).Inv := by decide

theorem witness_SeedingLoadsTheAccumulators :
    (([(.d, 6), (.a, 3)] : List (AccName × Acc64)).map Prod.fst).Nodup ∧
    (AccName.d, (6 : Acc64)) ∈ ([(.d, 6), (.a, 3)] : List (AccName × Acc64)) ∧
    AccName.b ∉ ([(.d, 6), (.a, 3)] : List (AccName × Acc64)).map Prod.fst := by decide

theorem witness_StreamedBytesAreFolded : ([.putb 0x61, .putw 0x65646362] : List Instr).all isData = true := by decide

/-- P3, the second chunk: CLR, the seed 3, 4, 5, 6, PUTW 3, PUTB 9, END. -/
theorem witness_ComputationShowsTheChecksum :
    computation? (([0x00000000000000000, 0x40000000000000003, 0x50000000000000004, 0x60000000000000005, 0x70000000000000006,
      0x20000000000000003, 0x10000000000000009, 0x30000000000000000] : List CmdWord).map decode) =
      some ([(.a, 3), (.b, 4), (.c, 5), (.d, 6)], [3, 0, 0, 0, 9]) ∧
    computation? (([0x00000000000000000, 0x10000000000000009, 0x30000000000000000] : List CmdWord).map decode) =
      some ([], [9]) ∧
    afterClear? (([0x20000000000000003, 0x30000000000000000] : List CmdWord).map decode) = some ([], [3, 0, 0, 0]) := by
  decide

theorem witness_ComputationsFollowOneAnother :
    (([[.clr, .putb 1, .finish], [.clr, .finish]] : List (List Instr)) ≠ [] ∧
      ([[.clr, .putb 1, .finish], [.clr, .finish]] : List (List Instr)).map computation? =
        ([([], [1]), ([], [])] : List SeededInput).map some) ∧
    computations? [.clr, .putb 1, .finish, .clr, .finish] = some [([], [1]), ([], [])] ∧
    afterClear? [.ldacc .b 4, .finish] = some ([(.b, 4)], []) ∧
    computationsAfterReset? [.ldacc .b 4, .finish, .clr, .finish] = some [([(.b, 4)], []), ([], [])] := by
  refine ⟨⟨?_, ?_⟩, ?_, ?_, ?_⟩ <;> decide

/-- CLR, PUTB 9, END, and then CLR, PUTW 3, END; each END is a place where the ports show a Result. -/
theorem witness_EachComputationShowsItsChecksum :
    (computations? (([0x00000000000000000, 0x10000000000000009, 0x30000000000000000, 0x00000000000000000,
      0x20000000000000003, 0x30000000000000000] : List CmdWord).map decode) = some [([], [9]), ([], [3, 0, 0, 0])] ∧
      ([0x00000000000000000, 0x10000000000000009, 0x30000000000000000, 0x00000000000000000, 0x20000000000000003,
        0x30000000000000000] : List CmdWord) =
        [0x00000000000000000, 0x10000000000000009] ++ 0x30000000000000000 ::
          [0x00000000000000000, 0x20000000000000003, 0x30000000000000000] ∧
      decode 0x30000000000000000 = .finish) ∧
    (computationsAfterReset? (([0x10000000000000009, 0x30000000000000000] : List CmdWord).map decode) =
        some [([], [9])] ∧
      ([0x10000000000000009, 0x30000000000000000] : List CmdWord) =
        [0x10000000000000009] ++ 0x30000000000000000 :: []) := by
  refine ⟨⟨?_, ?_, ?_⟩, ?_, ?_⟩ <;> decide

theorem witness_TrailingGroupIsDropped :
    ([.putw 1, .putb 9] : List Instr).all isData = true ∧ ([.putw 1] : List Instr).all isData = true ∧
    streamOf [.putw 1] = (streamOf [.putw 1, .putb 9]).take (4 * ((streamOf [.putw 1, .putb 9]).length / 4)) := by decide

theorem witness_ShortInputGivesZero : ([7, 8, 9] : List Byte).length < 4 := by decide

/-- V50 and V51 with a first chunk of one Word. -/
theorem witness_ChunksCarryForward :
    4 ∣ ([1, 0, 0, 0] : List Byte).length ∧
    computation? (([0x00000000000000000, 0x20000000000000001, 0x30000000000000000] : List CmdWord).map decode) =
      some ([], [1, 0, 0, 0]) ∧
    runAll (State.facing Block.reset (acceptAll [0x00000000000000000, 0x20000000000000001, 0x30000000000000000])) =
      .next ⟨blk 1 1 1 1 [] true, []⟩ ∧
    computation? (([0x00000000000000000, 0x40000000000000001, 0x50000000000000001, 0x60000000000000001, 0x70000000000000001,
      0x20000000000000002, 0x30000000000000000] : List CmdWord).map decode) =
      some ([(.a, 1), (.b, 1), (.c, 1), (.d, 1)], [2, 0, 0, 0]) ∧
    (blk 1 1 1 1 [] true).obs.2 = some (Accs.ofLoads [(.a, 1), (.b, 1), (.c, 1), (.d, 1)]) :=
  ⟨by decide, by decide, rfl, by decide, by decide⟩

theorem witness_WidthsMakeNoDifference :
    (([0x2DEADBEEF04030201] : List CmdWord).map decode).all isData = true ∧
    (([0x10000000000000001, 0x10000000000000002, 0x10000000000000003, 0x10000000000000004] : List CmdWord).map decode).all
      isData = true ∧
    streamOf (([0x2DEADBEEF04030201] : List CmdWord).map decode) =
      streamOf (([0x10000000000000001, 0x10000000000000002, 0x10000000000000003, 0x10000000000000004] : List CmdWord).map
        decode) := by decide

theorem witness_AssemblerRejectsWhatDoesNotFit :
    instrsOf? (Stmt.bytes [1, 256]).expand = none ∧ instrsOf? (Stmt.bytes [1, 255]).expand = some [.putb 1, .putb 255] := by
  decide

end Sys2Proof.Tests
end

section
/-! Scope and order of events (00_scope.md R8, 20_memory.md R40). -/

namespace Sys2Proof.Machine

/-- Settles O10: the block left by `first` is the fold of the events' reactions, which mentions neither the events
still to come nor the host's list. -/
theorem eventsTakeEffectInOrder : Obligations.EventsTakeEffectInOrder := by
  intro bl first later
  have longer_list_resumes : runAll (State.facing bl (first ++ later)) =
      runAll (State.facing (first.foldl Block.react bl) later) := by
    rw [runAll_facing, runAll_facing, List.foldl_append]
  exact ⟨first.foldl Block.react bl, runAll_facing bl first, run_events bl first later, longer_list_resumes⟩

end Sys2Proof.Machine
end

section
/-! SUPPORT. Decoding undoes encoding, so that a run of encoded commands is the fold of their effects. -/

namespace Sys2Proof

/-- The register field of LDACC is the low two bits of the operation code (30_encoding.md R49). -/
theorem regField_cmdWord (o : BitVec 3) (d : BitVec 64) : regField (cmdWord o d) = o.setWidth 2 := by
  apply BitVec.eq_of_toNat_eq
  rw [regField, field_toNat, cmdWord_toNat, BitVec.toNat_setWidth]
  have := d.isLt
  omega

theorem imm8Field_cmdWord (o : BitVec 3) (d : BitVec 64) : imm8Field (cmdWord o d) = d.setWidth 8 :=
  field_cmdWord 8 (by decide) o d

theorem imm32Field_cmdWord (o : BitVec 3) (d : BitVec 64) : imm32Field (cmdWord o d) = d.setWidth 32 :=
  field_cmdWord 32 (by decide) o d

theorem dataField_cmdWord (o : BitVec 3) (d : BitVec 64) : dataField (cmdWord o d) = d := by
  rw [dataField, field_cmdWord 64 le_rfl, BitVec.setWidth_eq]

/-- A word whose operation code has bit 2 set is an LDACC (30_encoding.md R51). -/
theorem decode_cmdWord_ldacc (r : BitVec 2) (d : BitVec 64) :
    decode (cmdWord (1#1 ++ r) d) = .ldacc (accOfBits r) d := by
  have op_bits : ∀ r : BitVec 2, 1#1 ++ r ≠ 0 ∧ 1#1 ++ r ≠ 1 ∧ 1#1 ++ r ≠ 2 ∧ 1#1 ++ r ≠ (3 : BitVec 3) ∧
      (1#1 ++ r).setWidth 2 = r := by decide
  obtain ⟨h0, h1, h2, h3, register⟩ := op_bits r
  rw [decode, opField_cmdWord, if_neg h0, if_neg h1, if_neg h2, if_neg h3, regField_cmdWord, register,
    dataField_cmdWord]

/-- The canonical word of a command decodes to that command (30_encoding.md R58). -/
theorem decode_encode (i : Instr) : decode (encode i) = i := by
  cases i with
  | clr => rfl
  | putb imm8 => simp [encode, decode, opField_cmdWord, imm8Field_cmdWord]
  | putw imm32 => simp [encode, decode, opField_cmdWord, imm32Field_cmdWord]
  | finish => rfl
  | ldacc r imm64 => rw [encode, decode_cmdWord_ldacc, accOfBits_accNumber]

end Sys2Proof

namespace Sys2Proof.Machine

/-- Everything a run of commands can do. -/
theorem runCommands_eq (cmds : List Instr) (bl : Block) :
    runCommands cmds bl = .next ⟨cmds.foldl Block.apply bl, []⟩ := by
  have decoded : (cmds.map encode).map decode = cmds := by simp [Function.comp_def, decode_encode]
  rw [runCommands, runAll_acceptAll, decoded]

end Sys2Proof.Machine
end

section
/-! SUPPORT. What a command does to the block in the DONE state and in the RUN state. -/

namespace Sys2Proof.Machine

/-- In the DONE state every command but CLR has no effect (42_finish_result.md R107). -/
theorem Block.apply_done {bl : Block} (h : bl.done = true) {i : Instr} (hi : i ≠ .clr) : bl.apply i = bl := by
  cases i with
  | clr => exact absurd rfl hi
  | putb b => exact Block.whenRun_done h (·.pushByte b)
  | putw w => exact Block.whenRun_done h (·.pushWord w)
  | finish => exact Block.whenRun_done h (·.endInput)
  | ldacc r v => exact Block.whenRun_done h (·.loadAcc r v)

theorem Block.apply_data {bl : Block} (h : bl.done = false) {i : Instr} (hi : isData i = true) :
    bl.apply i = bl.pushAll (bytesOf i) := by
  have single := foldl_apply_data (cmds := [i]) (by simp [hi]) h
  rwa [streamOf, streamOf, List.append_nil] at single

theorem Block.apply_finish {bl : Block} (h : bl.done = false) : bl.apply .finish = bl.endInput :=
  Block.whenRun_run h (·.endInput)

theorem Block.apply_ldacc {bl : Block} (h : bl.done = false) (r : AccName) (v : Acc64) :
    bl.apply (.ldacc r v) = bl.loadAcc r v :=
  Block.whenRun_run h (·.loadAcc r v)

/-- Bytes that complete no group are appended to the pending ones, and nothing else changes. -/
theorem Block.pushAll_appends {bl : Block} {bs : List Byte} (h : bl.pend.length + bs.length < 4) :
    bl.pushAll bs = ⟨bl.accs, bl.pend ++ bs, bl.done⟩ := by
  induction bs generalizing bl with
  | nil => simp [Block.pushAll_nil]
  | cons b bs ih =>
    rw [List.length_cons] at h
    rw [Block.pushAll_cons, Block.pushByte_appends (by omega), ih (by simp; omega)]
    simp

/-- Accumulators that read alike are equal. -/
theorem Accs.eq_of_read {x y : Accs} (h : ∀ q, x.read q = y.read q) : x = y := by
  cases x
  cases y
  rw [Accs.mk.injEq]
  exact ⟨h .a, h .b, h .c, h .d⟩

/-- Writes of distinct accumulators commute: no two are the same storage (10_state.md R13). -/
theorem Accs.write_comm (x : Accs) {r q : AccName} (h : r ≠ q) (v w : Acc64) :
    (x.write r v).write q w = (x.write q w).write r v := by
  refine Accs.eq_of_read fun p => ?_
  simp only [Accs.read_write]
  by_cases hr : p = r
  · simp [hr, h]
  · simp [hr]

end Sys2Proof.Machine
end

section
/-! The invariant of 10_state.md R23: at reset, at every step, and so in every reachable state. -/

namespace Sys2Proof.Machine

theorem Block.reset_inv : Block.reset.Inv := ⟨Nat.zero_le 3, fun _ => rfl⟩

/-- In the RUN state the invariant is the bound on the pending bytes alone. -/
theorem Block.inv_of_run {bl : Block} (hp : bl.pend.length ≤ 3) (hr : bl.done = false) : bl.Inv :=
  ⟨hp, by simp [hr]⟩

theorem Block.endInput_inv (bl : Block) : bl.endInput.Inv := ⟨Nat.zero_le 3, fun _ => rfl⟩

/-- A guarded effect has to keep the invariant in the RUN state only. -/
theorem Block.whenRun_keeps_inv {bl : Block} (h : bl.Inv) {effect : Block → Block}
    (he : bl.done = false → (effect bl).Inv) : (bl.whenRun effect).Inv := by
  obtain ⟨-, same⟩ | ⟨hr, runs⟩ := Block.whenRun_cases bl effect
  · rwa [same]
  · rw [runs]; exact he hr

theorem Block.apply_keeps_inv {bl : Block} (h : bl.Inv) (i : Instr) : (bl.apply i).Inv := by
  have at_most_three : bl.pend.length ≤ 3 := h.1
  cases i with
  | clr => exact Block.reset_inv
  | putb b =>
    exact Block.whenRun_keeps_inv h fun hr =>
      Block.inv_of_run (Block.pushByte_pend_length at_most_three b) ((Block.pushByte_done bl b).trans hr)
  | putw w =>
    exact Block.whenRun_keeps_inv h fun hr =>
      Block.inv_of_run (Block.pushAll_pend_length at_most_three (lanes w)) ((Block.pushWord_done bl w).trans hr)
  | finish => exact Block.whenRun_keeps_inv h fun _ => bl.endInput_inv
  | ldacc r v => exact Block.whenRun_keeps_inv h fun hr => Block.inv_of_run at_most_three hr

theorem Block.react_keeps_inv {bl : Block} (h : bl.Inv) (e : Event) : (bl.react e).Inv := by
  cases e with
  | reset => exact Block.reset_inv
  | accept cw => exact Block.apply_keeps_inv h (decode cw)

/-- Settles O37: the reset state of the machine holds the reset block. -/
theorem invariantAtReset : Obligations.InvariantAtReset := Block.reset_inv

/-- Settles O38: an idle step leaves the block as it is, and the reaction to any event keeps the invariant. -/
theorem stepKeepsTheInvariant : Obligations.StepKeepsTheInvariant := by
  rintro ⟨bl, inputs⟩ t h hstep
  cases inputs with
  | nil =>
    rw [step_nil] at hstep
    cases hstep
    exact h
  | cons e es =>
    rw [step_cons] at hstep
    cases hstep
    exact Block.react_keeps_inv h e

/-- Settles O39, by induction over the events, each of whose reactions keeps the invariant. -/
theorem reachableStatesMeetTheInvariant : Obligations.ReachableStatesMeetTheInvariant := by
  intro events
  have kept : (events.foldl Block.react Block.reset).Inv :=
    List.foldlRecOn events Block.react Block.reset_inv fun _ h e _ => Block.react_keeps_inv h e
  exact ⟨_, runAll_facing Block.reset events, kept⟩

end Sys2Proof.Machine
end

section
/-! What the commands do to DONE and to the accumulators (10_state.md R12, R13, R15, R22). -/

namespace Sys2Proof.Machine

/-- A guarded effect that keeps DONE in the RUN state keeps it. -/
theorem Block.whenRun_keeps_done {bl : Block} {effect : Block → Block} (h : (effect bl).done = bl.done) :
    (bl.whenRun effect).done = bl.done := by
  obtain ⟨-, same⟩ | ⟨-, runs⟩ := Block.whenRun_cases bl effect
  · rw [same]
  · rw [runs, h]

/-- Only CLR and END change DONE (10_state.md R15). -/
theorem Block.apply_keeps_done (bl : Block) {i : Instr} (hc : i ≠ .clr) (hf : i ≠ .finish) :
    (bl.apply i).done = bl.done := by
  cases i with
  | clr => exact absurd rfl hc
  | putb b => exact Block.whenRun_keeps_done (bl.pushByte_done b)
  | putw w => exact Block.whenRun_keeps_done (bl.pushWord_done w)
  | finish => exact absurd rfl hf
  | ldacc r v => exact Block.whenRun_keeps_done (bl.loadAcc_done r v)

theorem Block.apply_finish_done (bl : Block) : (bl.apply .finish).done = true := by
  cases h : bl.done with
  | true => rw [Block.apply_done h (by decide), h]
  | false => rw [Block.apply_finish h, Block.endInput_done]

/-- Settles O26: CLR and the reset event answer the reset block, END sets DONE, the other commands keep it. -/
theorem doneFlagTransitions : Obligations.DoneFlagTransitions :=
  ⟨fun s => ⟨_, exec_eq .clr s, rfl⟩,
   fun s => ⟨_, exec_eq .finish s, s.block.apply_finish_done⟩,
   fun i s hc hf => ⟨_, exec_eq i s, s.block.apply_keeps_done hc hf⟩,
   fun bl rest => ⟨_, step_cons bl .reset rest, rfl⟩⟩

/-- The commands that can change an accumulator (10_state.md R12). -/
theorem Block.apply_writes {bl : Block} {i : Instr} {q : AccName}
    (h : (bl.apply i).accs.read q ≠ bl.accs.read q) :
    i = .clr ∨ (bl.done = false ∧ ∃ imm64, i = .ldacc q imm64) ∨
      (bl.done = false ∧ isData i = true ∧ 4 ≤ bl.pend.length + (bytesOf i).length) := by
  by_cases hc : i = .clr
  · exact .inl hc
  have hr : bl.done = false := by
    rw [← Bool.not_eq_true]
    exact fun hd => h (by rw [Block.apply_done hd hc])
  by_cases hd : isData i = true
  · have completes : 4 ≤ bl.pend.length + (bytesOf i).length := by
      by_contra hlt
      exact h (by rw [Block.apply_data hr hd, Block.pushAll_appends (by omega)])
    exact .inr (.inr ⟨hr, hd, completes⟩)
  cases i with
  | clr => exact absurd rfl hc
  | putb => exact absurd rfl hd
  | putw => exact absurd rfl hd
  | finish => exact absurd (by rw [Block.apply_finish hr, Block.endInput_accs]) h
  | ldacc r v =>
    rw [Block.apply_ldacc hr, Block.loadAcc_accs, Accs.read_write] at h
    obtain rfl : q = r := by
      by_contra hne
      exact h (if_neg hne)
    exact .inr (.inl ⟨hr, v, rfl⟩)

/-- Settles O27: the effect on the block meets the list of writers, and no command touches the host's list. -/
theorem writersOfTheAccumulators : Obligations.WritersOfTheAccumulators := fun i s =>
  ⟨_, exec_eq i s, rfl, fun _ h => Block.apply_writes h⟩

/-- In either state of DONE two loads of distinct accumulators commute. -/
theorem Block.apply_ldacc_comm (bl : Block) {r q : AccName} (h : r ≠ q) (v w : Acc64) :
    (bl.apply (.ldacc r v)).apply (.ldacc q w) = (bl.apply (.ldacc q w)).apply (.ldacc r v) := by
  cases hd : bl.done with
  | true => simp [Block.apply_done hd]
  | false => simp [Block.apply_ldacc, hd, Block.loadAcc, Accs.write_comm _ h]

/-- Settles O28: the loads commute, and from the RUN state each register reads as what it was loaded with. -/
theorem loadsOfDistinctAccumulatorsCommute : Obligations.LoadsOfDistinctAccumulatorsCommute := by
  intro bl r q v w hne
  refine ⟨_, runCommands_eq _ bl, ?_, fun hr => ?_⟩
  · simp only [runCommands_eq, List.foldl_cons, List.foldl_nil, bl.apply_ldacc_comm hne v w]
  · simp [Block.apply_ldacc, hr, Accs.read_write, hne]

/-- Settles O34: the components are read off the reset block, which is also CLR's effect on every block. -/
theorem resetStateIsTheClearedState : Obligations.ResetStateIsTheClearedState :=
  ⟨rfl, rfl, rfl, rfl, rfl, rfl, rfl, exec_eq .clr⟩

end Sys2Proof.Machine
end

section
/-! Every block that the invariant allows is reached, by the commands 10_state.md R24 names. -/

namespace Sys2Proof.Machine

/-- LDACC of each accumulator with its value in `x`. -/
def Accs.loads (x : Accs) : List Instr := [.ldacc .a x.a, .ldacc .b x.b, .ldacc .c x.c, .ldacc .d x.d]

theorem foldl_apply_loads (x y : Accs) (p : List Byte) :
    x.loads.foldl Block.apply ⟨y, p, false⟩ = ⟨x, p, false⟩ := rfl

theorem streamOf_map_putb (bs : List Byte) : streamOf (bs.map .putb) = bs := by
  induction bs with
  | nil => rfl
  | cons b bs ih => rw [List.map_cons, streamOf, ih, bytesOf, List.singleton_append]

/-- A PUTB of each of at most three bytes, from no pending byte, leaves just those pending. -/
theorem foldl_apply_putb (x : Accs) {bs : List Byte} (h : bs.length ≤ 3) :
    (bs.map .putb).foldl Block.apply ⟨x, [], false⟩ = ⟨x, bs, false⟩ := by
  have all_data : (bs.map Instr.putb).all isData = true := by simp [isData]
  rw [foldl_apply_data all_data rfl, streamOf_map_putb, Block.pushAll_appends (by simp; omega), List.nil_append]

/-- CLR, the loads, and a PUTB of each pending byte (10_state.md R24). -/
def commandsToRun (x : Accs) (bs : List Byte) : List Instr := .clr :: (x.loads ++ bs.map .putb)

theorem foldl_apply_commandsToRun (x : Accs) {bs : List Byte} (h : bs.length ≤ 3) (start : Block) :
    (commandsToRun x bs).foldl Block.apply start = ⟨x, bs, false⟩ := by
  have cleared : start.apply .clr = ⟨Accs.zero, [], false⟩ := rfl
  rw [commandsToRun, List.foldl_cons, cleared, List.foldl_append, foldl_apply_loads, foldl_apply_putb x h]

/-- Settles O40: with DONE = 0 the target is loaded directly; with DONE = 1 no byte is pending, and END follows. -/
theorem everyAllowedStateIsReachable : Obligations.EveryAllowedStateIsReachable := by
  rintro ⟨x, pend, done⟩ start ⟨hlen, hdone⟩
  cases done with
  | false => exact ⟨commandsToRun x pend, by rw [runCommands_eq, foldl_apply_commandsToRun x hlen]⟩
  | true =>
    obtain rfl : pend = [] := hdone rfl
    refine ⟨commandsToRun x [] ++ [.finish], ?_⟩
    rw [runCommands_eq, List.foldl_append, foldl_apply_commandsToRun x hlen]
    rfl

end Sys2Proof.Machine
end

section
/-! SUPPORT. A group of four bytes and its Word (20_memory.md R32, R33), and the partition of a byte sequence, read from
its front group by group (R35). -/

namespace Sys2Proof.Machine

/-- An appended bit vector counts in units above the lower one. -/
theorem toNat_append_eq_add {m n : Nat} (hi : BitVec m) (lo : BitVec n) :
    (hi ++ lo).toNat = hi.toNat * 2 ^ n + lo.toNat := by
  rw [BitVec.toNat_append, ← Nat.shiftLeft_add_eq_or_of_lt lo.isLt, Nat.shiftLeft_eq]

/-- The Word of a group as a number (20_memory.md R32). -/
theorem groupWord_toNat (b0 b1 b2 b3 : Byte) :
    (groupWord b0 b1 b2 b3).toNat = b0.toNat + 256 * b1.toNat + 65536 * b2.toNat + 16777216 * b3.toNat := by
  simp only [groupWord, toNat_append_eq_add]
  omega

/-- The Word of a payload's lanes is the payload (20_memory.md R33). -/
theorem groupWord_lanes (w : Word) : groupWord (laneOf 0 w) (laneOf 1 w) (laneOf 2 w) (laneOf 3 w) = w := by
  apply BitVec.eq_of_toNat_eq
  simp only [groupWord_toNat, laneOf_toNat]
  have := w.isLt
  omega

/-- The lanes of a group's Word are the bytes of the group. -/
theorem lanes_groupWord (b0 b1 b2 b3 : Byte) : lanes (groupWord b0 b1 b2 b3) = [b0, b1, b2, b3] := by
  have h0 := b0.isLt
  have h1 := b1.isLt
  have h2 := b2.isLt
  have h3 := b3.isLt
  simp only [lanes, List.cons.injEq, and_true, ← BitVec.toNat_inj, laneOf_toNat, groupWord_toNat]
  omega

/-- The little-endian number of four bytes is that of their Word. -/
theorem leNat_group (b0 b1 b2 b3 : Byte) : leNat [b0, b1, b2, b3] = (groupWord b0 b1 b2 b3).toNat := by
  rw [groupWord_toNat]
  simp only [leNat]
  omega

/-- Word `k` is the Word of the four bytes from offset `4k` on. -/
theorem wordAt_eq_groupWord {data rest : List Byte} {k : Nat} {b0 b1 b2 b3 : Byte}
    (h : data.drop (4 * k) = b0 :: b1 :: b2 :: b3 :: rest) : wordAt data k = groupWord b0 b1 b2 b3 := by
  have four_bytes : (data.drop (4 * k)).take 4 = [b0, b1, b2, b3] := by rw [h]; rfl
  have read : wordAt data k = BitVec.ofNat 32 (leNat ((data.drop (4 * k)).take 4)) := rfl
  rw [read, four_bytes, leNat_group, BitVec.ofNat_toNat, BitVec.setWidth_eq]

/-- A group in front moves every Word one place back. -/
theorem wordAt_group_succ (b0 b1 b2 b3 : Byte) (rest : List Byte) (k : Nat) :
    wordAt (b0 :: b1 :: b2 :: b3 :: rest) (k + 1) = wordAt rest k := rfl

theorem nwords_group (b0 b1 b2 b3 : Byte) (rest : List Byte) :
    nwords (b0 :: b1 :: b2 :: b3 :: rest) = nwords rest + 1 :=
  Nat.add_div_right rest.length (show 0 < 4 by decide)

theorem nwords_short {data : List Byte} (h : data.length < 4) : nwords data = 0 := Nat.div_eq_of_lt h

theorem wordsOf_group (b0 b1 b2 b3 : Byte) (rest : List Byte) :
    wordsOf (b0 :: b1 :: b2 :: b3 :: rest) = groupWord b0 b1 b2 b3 :: wordsOf rest := by
  rw [wordsOf, nwords_group, List.range_succ_eq_map, List.map_cons, List.map_map,
    wordAt_eq_groupWord (k := 0) rfl]
  exact congrArg _ (List.map_congr_left fun k _ => wordAt_group_succ b0 b1 b2 b3 rest k)

theorem wordsOf_short {data : List Byte} (h : data.length < 4) : wordsOf data = [] := by
  rw [wordsOf, nwords_short h]
  rfl

theorem tailOf_group (b0 b1 b2 b3 : Byte) (rest : List Byte) :
    tailOf (b0 :: b1 :: b2 :: b3 :: rest) = tailOf rest := by
  rw [tailOf, nwords_group]
  rfl

theorem tailOf_short {data : List Byte} (h : data.length < 4) : tailOf data = data := by
  rw [tailOf, nwords_short h]
  rfl

/-- Induction over a byte sequence by its groups: fewer than four bytes, or a group in front of a sequence. -/
theorem group_induction {motive : List Byte → Prop} (short : ∀ data, data.length < 4 → motive data)
    (group : ∀ b0 b1 b2 b3 rest, motive rest → motive (b0 :: b1 :: b2 :: b3 :: rest)) : ∀ data, motive data
  | [] => short [] (by simp)
  | [b0] => short [b0] (by simp)
  | [b0, b1] => short [b0, b1] (by simp)
  | [b0, b1, b2] => short [b0, b1, b2] (by simp)
  | b0 :: b1 :: b2 :: b3 :: rest => group b0 b1 b2 b3 rest (group_induction short group rest)

end Sys2Proof.Machine
end

section
/-! The InputBuffer: byte order, the partition into groups, and what the data commands do with them
(20_memory.md R32, R33, R35, R36, R37; 42_finish_result.md R99). -/

namespace Sys2Proof.Machine

/-- Settles O20: the four bytes from offset `4k` on are the elements there, and their Word is little-endian. -/
theorem wordIsLittleEndian : Obligations.WordIsLittleEndian := by
  refine ⟨fun data k h => ?_, by decide, by decide⟩
  have at_offset : data.drop (4 * k) =
      data[4 * k] :: data[4 * k + 1] :: data[4 * k + 2] :: data[4 * k + 3] :: data.drop (4 * k + 4) := by
    simp only [List.cons_getElem_drop_succ]
  rw [wordAt_eq_groupWord at_offset]
  exact ⟨groupWord_toNat _ _ _ _, rfl⟩

/-- Settles O21: each lane is a quotient modulo 256, and the lanes together are the payload. -/
theorem lanesAreInOffsetOrder : Obligations.LanesAreInOffsetOrder := by
  refine fun imm32 => ⟨?_, groupWord_lanes imm32⟩
  simp [lanes, laneOf_toNat]

/-- A command that carries no data has, the second time, no further effect on the block. -/
theorem Block.apply_idempotent (bl : Block) {i : Instr} (hi : isData i = false) :
    (bl.apply i).apply i = bl.apply i := by
  cases i with
  | clr => rfl
  | putb => cases hi
  | putw => cases hi
  | finish => exact Block.apply_done bl.apply_finish_done (by decide)
  | ldacc r v =>
    cases hd : bl.done with
    | true => rw [Block.apply_done hd (by simp), Block.apply_done hd (by simp)]
    | false =>
      have last_write_wins : (bl.accs.write r v).write r v = bl.accs.write r v := by cases r <;> rfl
      rw [Block.apply_ldacc hd, Block.apply_ldacc ((bl.loadAcc_done r v).trans hd), Block.loadAcc,
        Block.loadAcc_accs, last_write_wins]
      rfl

/-- Settles O33: the effect of CLR, END and LDACC is idempotent; from reset a second zero byte is one more pending byte,
and a second Word 1 is added again. -/
theorem whichCommandsAreIdempotent : Obligations.WhichCommandsAreIdempotent := by
  refine ⟨fun i s t hi h => ?_, ⟨0, State.reset, _, exec_eq _ _, fun h => ?_⟩,
    ⟨1, State.reset, _, exec_eq _ _, fun h => ?_⟩⟩ <;> rw [exec_eq] at h
  · cases h
    rw [exec_eq, State.withBlock_block, Block.apply_idempotent s.block hi]
    rfl
  · exact absurd (Host.Outcome.next.inj h) (by decide)
  · exact absurd (Host.Outcome.next.inj h) (by decide)

/-- One turn of the contract's loop is ABSORB (41_data_ingest.md R75, 42_finish_result.md R99). -/
theorem Accs.loopBody_eq_absorb (x : Accs) (v : Word) : x.loopBody v = x.absorb v := by
  have widened : v.toNat = (zext64 v).toNat := (BitVec.toNat_setWidth_of_le (by decide)).symm
  rw [Accs.absorb_eq]
  simp only [Accs.loopBody, widened, ← BitVec.toNat_add, BitVec.ofNat_toNat, BitVec.setWidth_eq]

/-- Settles O41: the loop over the indices of the Words is the fold over the Words, and each turn is ABSORB. -/
theorem foldAbsorbsTheWords : Obligations.FoldAbsorbsTheWords := by
  intro s data
  simp only [Accs.fold, Accs.absorbAll, wordsOf, List.foldl_map, Accs.loopBody_eq_absorb]

theorem wordsOf_length (data : List Byte) : (wordsOf data).length = data.length / 4 := by
  rw [wordsOf, List.length_map, List.length_range, nwords]

theorem tailOf_length (data : List Byte) : (tailOf data).length = data.length % 4 := by
  rw [tailOf, List.length_drop, nwords]
  exact (Nat.mod_eq_sub _ _).symm

/-- The input is the bytes of its Words and then its trailing group (20_memory.md R35). -/
theorem lanes_wordsOf_append_tailOf (data : List Byte) : (wordsOf data).flatMap lanes ++ tailOf data = data := by
  induction data using group_induction with
  | short data h => rw [wordsOf_short h, tailOf_short h]; rfl
  | group b0 b1 b2 b3 rest ih =>
    rw [wordsOf_group, tailOf_group, List.flatMap_cons, lanes_groupWord, List.append_assoc, ih]
    rfl

/-- Settles O42, by induction over the groups of the input. -/
theorem groupsPartitionTheInput : Obligations.GroupsPartitionTheInput := fun data =>
  ⟨wordsOf_length data, tailOf_length data, (lanes_wordsOf_append_tailOf data).symm⟩

/-- At phase 0 the bytes of a group absorb its Word and leave phase 0. -/
theorem Block.pushAll_group (x : Accs) (done : Bool) (b0 b1 b2 b3 : Byte) (rest : List Byte) :
    Block.pushAll ⟨x, [], done⟩ (b0 :: b1 :: b2 :: b3 :: rest) =
      Block.pushAll ⟨x.absorb (groupWord b0 b1 b2 b3), [], done⟩ rest := rfl

/-- From phase 0, PUSHBYTE of a sequence of bytes absorbs its Words and keeps its trailing group
(20_memory.md R35, R36). -/
theorem Block.pushAll_eq (x : Accs) (done : Bool) (data : List Byte) :
    Block.pushAll ⟨x, [], done⟩ data = ⟨x.absorbAll (wordsOf data), tailOf data, done⟩ := by
  induction data using group_induction generalizing x with
  | short data h =>
    rw [Block.pushAll_appends (by simpa using h), wordsOf_short h, tailOf_short h]
    rfl
  | group b0 b1 b2 b3 rest ih =>
    rw [Block.pushAll_group, ih, wordsOf_group, tailOf_group]
    rfl

/-- Settles O44: data commands push the bytes they carry, which absorbs the Words of those bytes, and so their fold. -/
theorem streamedBytesAreFolded : Obligations.StreamedBytesAreFolded := by
  intro x cmds hdata
  rw [runCommands_eq, foldl_apply_data hdata rfl, Block.pushAll_eq, foldAbsorbsTheWords]

end Sys2Proof.Machine
end

section
/-! SUPPORT. The canonical word of a command: what decoding reads of a word, and what encoding the decoded command
gives back (30_encoding.md R49, R51, R52, R58). -/

namespace Sys2Proof

/-- A payload field at bit 0 is the word modulo a power of two (30_encoding.md R49). -/
theorem field_zero_eq_ofNat {n : Nat} (width : Nat) (v : BitVec n) : field 0 width v = BitVec.ofNat width v.toNat := by
  apply BitVec.eq_of_toNat_eq
  rw [field_toNat, pow_zero, Nat.div_one, BitVec.toNat_ofNat]

theorem decode_of_opField_clr {cw : CmdWord} (h : opField cw = 0) : decode cw = .clr := by
  rw [decode, h]
  rfl

theorem decode_of_opField_putb {cw : CmdWord} (h : opField cw = 1) : decode cw = .putb (imm8Field cw) := by
  rw [decode, h]
  rfl

theorem decode_of_opField_putw {cw : CmdWord} (h : opField cw = 2) : decode cw = .putw (imm32Field cw) := by
  rw [decode, h]
  rfl

theorem decode_of_opField_finish {cw : CmdWord} (h : opField cw = 3) : decode cw = .finish := by
  rw [decode, h]
  rfl

theorem decode_of_opField_ldacc {cw : CmdWord} {r : BitVec 2} (h : opField cw = 1#1 ++ r) :
    decode cw = .ldacc (accOfBits r) (dataField cw) := by
  rw [← cmdWord_fields cw, h, decode_cmdWord_ldacc, dataField_cmdWord]

theorem accNumber_accOfBits : ∀ r : BitVec 2, accNumber (accOfBits r) = r := by decide

/-- The operation codes of the five commands are all there are (30_encoding.md R48). -/
theorem opcode_cases : ∀ o : BitVec 3, o = 0 ∨ o = 1 ∨ o = 2 ∨ o = 3 ∨ ∃ r : BitVec 2, o = 1#1 ++ r := by decide

/-- The payload bits that a command reads: those that 30_encoding.md R49 does not mark `u`. -/
def readMask : Instr → BitVec 64
  | .clr => 0#64
  | .putb _ => (BitVec.allOnes 8).setWidth 64
  | .putw _ => (BitVec.allOnes 32).setWidth 64
  | .finish => 0#64
  | .ldacc _ _ => BitVec.allOnes 64

theorem not_unusedMask (i : Instr) : ~~~unusedMask i = cmdWord (BitVec.allOnes 3) (readMask i) := by
  cases i <;> simp only [unusedMask, readMask] <;> decide

/-- Clearing a command's unused bits leaves the operation code and the payload bits that the command reads. -/
theorem and_not_unusedMask (cw : CmdWord) (i : Instr) :
    cw &&& ~~~unusedMask i = cmdWord (opField cw) (dataField cw &&& readMask i) := by
  have by_fields := cmdWord_and (opField cw) (BitVec.allOnes 3) (dataField cw) (readMask i)
  rwa [cmdWord_fields, BitVec.and_allOnes, ← not_unusedMask] at by_fields

/-- No command ignores a bit of the operation code (30_encoding.md R49). -/
theorem opField_and_not_unusedMask (cw : CmdWord) (i : Instr) : opField (cw &&& ~~~unusedMask i) = opField cw := by
  rw [and_not_unusedMask, opField_cmdWord]

/-- The low `n` bits of a value, as a mask and as a truncation. -/
theorem and_allOnes_setWidth (n : Nat) {w : Nat} (x : BitVec w) :
    x &&& (BitVec.allOnes n).setWidth w = (x.setWidth n).setWidth w := by
  ext i hi
  simp [BitVec.getElem_setWidth, BitVec.getLsbD_eq_getElem hi, Bool.and_comm]

/-- Encoding the command of a word clears the unused bits and keeps all others (30_encoding.md R58). -/
theorem encode_decode (cw : CmdWord) : encode (decode cw) = cw &&& ~~~unusedMask (decode cw) := by
  rw [and_not_unusedMask]
  obtain h | h | h | h | ⟨r, h⟩ := opcode_cases (opField cw)
  · rw [h, decode_of_opField_clr h, readMask, BitVec.and_zero]
    rfl
  · rw [h, decode_of_opField_putb h, readMask, and_allOnes_setWidth, ← imm8Field_cmdWord (opField cw),
      cmdWord_fields]
    rfl
  · rw [h, decode_of_opField_putw h, readMask, and_allOnes_setWidth, ← imm32Field_cmdWord (opField cw),
      cmdWord_fields]
    rfl
  · rw [h, decode_of_opField_finish h, readMask, BitVec.and_zero]
    rfl
  · rw [h, decode_of_opField_ldacc h, readMask, BitVec.and_allOnes, encode, accNumber_accOfBits]

theorem and_not_eq_self_iff {w : Nat} (x m : BitVec w) : x &&& ~~~m = x ↔ x &&& m = 0 := by
  have flips_masked_bits : x &&& ~~~m = x ^^^ (x &&& m) := by
    ext i hi
    cases hx : x[i] <;> simp [hx]
  rw [flips_masked_bits]
  exact xor_left_eq_self_iff

/-- A word is canonical exactly when its unused bits are 0 (30_encoding.md R58). -/
theorem encode_decode_eq_self_iff (cw : CmdWord) : encode (decode cw) = cw ↔ cw &&& unusedMask (decode cw) = 0 := by
  rw [encode_decode, and_not_eq_self_iff]

theorem encode_and_unusedMask (i : Instr) : encode i &&& unusedMask i = 0 := by
  have canonical := (encode_decode_eq_self_iff (encode i)).mp (by rw [decode_encode])
  rwa [decode_encode] at canonical

/-- Words with the same operation code are commands with the same unused bits (30_encoding.md R49). -/
theorem unusedMask_decode_congr {cw cw' : CmdWord} (h : opField cw' = opField cw) :
    unusedMask (decode cw') = unusedMask (decode cw) := by
  rw [decode, decode, h]
  split_ifs <;> rfl

theorem and_eq_and_of_xor_and_eq_zero {w : Nat} {x y m : BitVec w} (h : (x ^^^ y) &&& m = 0) : x &&& m = y &&& m := by
  have distributes : (x ^^^ y) &&& m = (x &&& m) ^^^ (y &&& m) := by
    ext i hi
    simp [Bool.and_xor_distrib_right]
  exact BitVec.xor_eq_zero_iff.mp (distributes ▸ h)

/-- Words that differ only in bits that the command of the first ignores are the same command (30_encoding.md R52). -/
theorem decode_congr {cw cw' : CmdWord} (h : (cw ^^^ cw') &&& ~~~unusedMask (decode cw) = 0) :
    decode cw' = decode cw := by
  have agree := and_eq_and_of_xor_and_eq_zero h
  have same_op : opField cw' = opField cw := by
    rw [← opField_and_not_unusedMask cw' (decode cw), ← agree, opField_and_not_unusedMask]
  have same_canonical : encode (decode cw') = encode (decode cw) := by
    rw [encode_decode, encode_decode, unusedMask_decode_congr same_op, agree]
  rw [← decode_encode (decode cw'), same_canonical, decode_encode]

end Sys2Proof
end

section
/-! SUPPORT. The opcode map reads the operation code of a word alone (30_encoding.md R48). -/

namespace Sys2Proof

/-- No row of the opcode map fixes a payload bit (30_encoding.md R48). -/
theorem matchesRow_cmdWord {row : OpcodeRow} (h : row ∈ opcodeRows) (op : BitVec 3) (data : BitVec 64) :
    matchesRow row (cmdWord op data) = matchesRow row (cmdWord op 0) := by
  have masks_no_payload : ∀ row ∈ opcodeRows, row.mask = cmdWord (opField row.mask) 0 := by decide
  rw [matchesRow, matchesRow, masks_no_payload row h, Laws.EncodedRow.cmdWord_and_mask,
    Laws.EncodedRow.cmdWord_and_mask]

/-- The mnemonic of a word is that of its operation code (30_encoding.md R48). -/
theorem mnemonic_decode_cmdWord (op : BitVec 3) (data : BitVec 64) :
    mnemonic (decode (cmdWord op data)) = mnemonic (decode (cmdWord op 0)) := by
  simp only [decode, opField_cmdWord]
  split_ifs <;> rfl

end Sys2Proof
end

section
/-! The command words (30_encoding.md R48, R51, R52, R53, R58). -/

namespace Sys2Proof.Machine

/-- Settles O1: encoding a decoded word clears its unused bits, which changes nothing exactly when they are 0; the
canonical numbers are an operation code and a zero-extended operand. -/
theorem decodeEncodeRoundTrip : Obligations.DecodeEncodeRoundTrip := by
  refine ⟨decode_encode, encode_decode, encode_decode_eq_self_iff, rfl, fun imm8 => ?_, fun imm32 => ?_, rfl,
    fun r imm64 => ?_⟩
  · rw [encode, cmdWord_toNat, BitVec.toNat_setWidth_of_le (by decide)]
    rfl
  · rw [encode, cmdWord_toNat, BitVec.toNat_setWidth_of_le (by decide)]
    rfl
  · rw [encode, cmdWord_toNat, toNat_append_eq_add]
    rfl

/-- Settles O2: the bits 66 to 64 as a number are the operation code, and every operand but the register is a field at
bit 0. -/
theorem decodeByOperationCode : Obligations.DecodeByOperationCode := by
  intro cw
  rw [← opField_toNat]
  refine ⟨(opField cw).isLt, fun h => ?_, fun h => ?_, fun h => ?_, fun h => ?_, fun r h => ?_⟩
  · exact decode_of_opField_clr (BitVec.eq_of_toNat_eq h)
  · rw [decode_of_opField_putb (BitVec.eq_of_toNat_eq h), imm8Field, field_zero_eq_ofNat]
  · rw [decode_of_opField_putw (BitVec.eq_of_toNat_eq h), imm32Field, field_zero_eq_ofNat]
  · exact decode_of_opField_finish (BitVec.eq_of_toNat_eq h)
  · have op_bits : opField cw = 1#1 ++ accNumber r :=
      BitVec.eq_of_toNat_eq (h.trans (toNat_append_eq_add 1#1 (accNumber r)).symm)
    rw [decode_of_opField_ldacc op_bits, accOfBits_accNumber, dataField, field_zero_eq_ofNat]

/-- Settles O3: rows and mnemonics read the operation code alone, so the eight operation codes decide. -/
theorem opcodeRowsPartitionTheWords : Obligations.OpcodeRowsPartitionTheWords := by
  intro cw
  have each_code : ∀ op : BitVec 3, (opcodeRows.filter (matchesRow · (cmdWord op 0))).map OpcodeRow.mnemonic =
      [mnemonic (decode (cmdWord op 0))] := by decide
  rw [← cmdWord_fields cw, mnemonic_decode_cmdWord, ← each_code]
  exact congrArg _ (List.filter_congr fun row h => matchesRow_cmdWord h _ _)

/-- Settles O4: a step reads an accepted word through its command alone. -/
theorem unusedBitsHaveNoEffect : Obligations.UnusedBitsHaveNoEffect := by
  refine ⟨fun cw cw' h => ⟨decode_congr h, fun bl rest => ?_⟩, encode_and_unusedMask⟩
  rw [step_cons, step_cons, Block.react, Block.react, decode_congr h]

end Sys2Proof.Machine
end

section
/-! The acceptance of command words at clock edges (30_encoding.md R45, R46; 60_exceptions.md R113). -/

namespace Sys2Proof.Machine

theorem Edge.event?_reset {e : Edge} (h : e.rst = true) : e.event? = some .reset := by
  rw [Edge.event?, if_pos h]

theorem Edge.event?_accept {e : Edge} (hrst : e.rst = false) (hvalid : e.cmdValid = true)
    (hready : e.cmdReady = true) : e.event? = some (.accept e.word) := by
  simp [Edge.event?, hrst, hvalid, hready]

theorem Edge.event?_none {e : Edge} (hrst : e.rst = false) (h : e.cmdValid = false ∨ e.cmdReady = false) :
    e.event? = none := by
  obtain hvalid | hready := h
  · simp [Edge.event?, hrst, hvalid]
  · simp [Edge.event?, hrst, hready]

/-- Settles O8: the three cases of the event of an edge; an edge without an event adds nothing to the host's list. -/
theorem edgeDecidesTheEvent : Obligations.EdgeDecidesTheEvent := by
  refine fun e => ⟨Edge.event?_reset, fun hrst hvalid hready => ?_, fun hrst h s => ?_⟩
  · exact ⟨e.word, Edge.event?_accept hrst hvalid hready, cmdWord_toNat e.cmdOp e.cmdData⟩
  · rw [State.clocked, List.filterMap_cons_none (Edge.event?_none hrst h), List.filterMap_nil, List.append_nil]

/-- What a host that keeps its duty presents after an edge that did not accept its word (30_encoding.md R46). -/
theorem holdsCommand_waiting {e f : Edge} {rest : List Edge} (h : holdsCommand (e :: f :: rest) = true)
    (hvalid : e.cmdValid = true) (hrst : e.rst = false) (hready : e.cmdReady = false) :
    f.cmdValid = true ∧ f.word = e.word ∧ holdsCommand (f :: rest) = true := by
  simpa [holdsCommand, hvalid, hrst, hready, and_assoc] using h

/-- Settles O9, by induction over the edges that follow: an edge at which the block is not ready has no event, and the
next edge presents the same word. -/
theorem heldCommandIsAccepted : Obligations.HeldCommandIsAccepted := by
  intro e edges
  induction edges generalizing e with
  | nil =>
    intro _ hvalid hrst hready
    rw [List.forall_mem_singleton] at hrst
    obtain ⟨f, hf, hready⟩ := hready
    obtain rfl := List.mem_singleton.mp hf
    rw [List.filterMap_cons_some (Edge.event?_accept hrst hvalid hready), List.head?_cons]
  | cons f rest ih =>
    intro hholds hvalid hrst hready
    obtain ⟨hrst_e, hrst_later⟩ := List.forall_mem_cons.mp hrst
    cases hready_e : e.cmdReady with
    | true => rw [List.filterMap_cons_some (Edge.event?_accept hrst_e hvalid hready_e), List.head?_cons]
    | false =>
      obtain ⟨hvalid_f, same_word, hholds_f⟩ := holdsCommand_waiting hholds hvalid hrst_e hready_e
      have ready_later : ∃ g ∈ f :: rest, g.cmdReady = true := by simpa [hready_e] using hready
      rw [List.filterMap_cons_none (Edge.event?_none hrst_e (.inr hready_e)), ← same_word]
      exact ih f hholds_f hvalid_f hrst_later ready_later

end Sys2Proof.Machine
end

section
/-! The assembler's statements and the commands they stand for (30_encoding.md R55, R56, R57). -/

namespace Sys2Proof

theorem RawCmd.toInstr?_eq_none_iff (raw : RawCmd) : raw.toInstr? = none ↔ raw.wf = false := by
  unfold RawCmd.toInstr?
  cases h : raw.wf with
  | false => simp
  | true => cases raw <;> simp

/-- A command written with its operands as plain numbers (30_encoding.md R55, R57). -/
def Instr.toRaw : Instr → RawCmd
  | .clr => .clr
  | .putb imm8 => .putb imm8.toNat
  | .putw imm32 => .putw imm32.toNat
  | .finish => .finish
  | .ldacc r imm64 => .ldacc (accNumber r).toNat imm64.toNat

/-- The assembler accepts every command written out, and reads it back. -/
theorem Instr.toInstr?_toRaw (i : Instr) : i.toRaw.toInstr? = some i := by
  cases i with
  | clr => rfl
  | putb imm8 => simp [Instr.toRaw, RawCmd.toInstr?, RawCmd.wf, imm8.isLt]
  | putw imm32 => simp [Instr.toRaw, RawCmd.toInstr?, RawCmd.wf, imm32.isLt]
  | finish => rfl
  | ldacc r imm64 =>
    have hr := (accNumber r).isLt
    simp [Instr.toRaw, RawCmd.toInstr?, RawCmd.wf, imm64.isLt, hr, accOfBits_accNumber]

namespace Machine

/-- A list of commands is rejected exactly when one of them is (30_encoding.md R55). -/
theorem instrsOf?_eq_none_iff (raws : List RawCmd) : instrsOf? raws = none ↔ ∃ raw ∈ raws, raw.toInstr? = none := by
  induction raws with
  | nil => simp [instrsOf?]
  | cons raw raws ih =>
    rw [List.exists_mem_cons_iff, ← ih, instrsOf?]
    cases raw.toInstr? with
    | none => simp
    | some i => cases instrsOf? raws <;> simp

theorem instrsOf?_map_toRaw (cmds : List Instr) : instrsOf? (cmds.map Instr.toRaw) = some cmds := by
  induction cmds with
  | nil => rfl
  | cons i cmds ih => rw [List.map_cons, instrsOf?, Instr.toInstr?_toRaw, ih]

/-- Settles O51: a command is rejected exactly when it is not well-formed, which are the bounds of the fields. -/
theorem assemblerRejectsWhatDoesNotFit : Obligations.AssemblerRejectsWhatDoesNotFit := by
  refine ⟨fun n => ?_, fun n => ?_, fun r n => ?_, fun st => instrsOf?_eq_none_iff st.expand⟩
  · simp [RawCmd.toInstr?_eq_none_iff, RawCmd.wf]
  · simp [RawCmd.toInstr?_eq_none_iff, RawCmd.wf]
  · rw [RawCmd.toInstr?_eq_none_iff, RawCmd.wf, Bool.and_eq_false_iff, decide_eq_false_iff_not,
      decide_eq_false_iff_not, Nat.not_lt, Nat.not_lt]

/-- Settles O53: the lines expand to the loads written out. -/
theorem seedLinesLoadTheAccumulators : Obligations.SeedLinesLoadTheAccumulators := fun a b c d =>
  ⟨instrsOf?_map_toRaw [.ldacc .a a, .ldacc .b b, .ldacc .c c, .ldacc .d d], instrsOf?_map_toRaw [.ldacc .a a],
   instrsOf?_map_toRaw [.ldacc .b b], instrsOf?_map_toRaw [.ldacc .c c], instrsOf?_map_toRaw [.ldacc .d d]⟩

/-- CLR, a PUTB of each byte, END (30_encoding.md R56). -/
def commandsToCompute (data : List Byte) : List Instr := .clr :: (data.map .putb ++ [.finish])

theorem expand_compute (data : List Byte) :
    (Stmt.compute (data.map BitVec.toNat)).expand = (commandsToCompute data).map Instr.toRaw := by
  simp [Stmt.expand, commandsToCompute, Instr.toRaw]

theorem foldl_apply_commandsToCompute (bl : Block) (data : List Byte) :
    (commandsToCompute data).foldl Block.apply bl = ⟨compute data, [], true⟩ := by
  have all_data : (data.map Instr.putb).all isData = true := by simp [isData]
  have cleared : bl.apply .clr = ⟨Accs.zero, [], false⟩ := rfl
  rw [commandsToCompute, List.foldl_cons, cleared, List.foldl_append, foldl_apply_data all_data rfl, streamOf_map_putb,
    Block.pushAll_eq, ← foldAbsorbsTheWords]
  rfl

/-- Settles O52: the line expands to CLR, the bytes and END written out, whose run folds the bytes from zero. -/
theorem computeLineRunsCompute : Obligations.ComputeLineRunsCompute := by
  intro bl data
  refine ⟨commandsToCompute data, ?_, ?_⟩
  · rw [expand_compute, instrsOf?_map_toRaw]
  · rw [runCommands_eq, foldl_apply_commandsToCompute]

end Machine

end Sys2Proof
end

section
/-! The start of a computation: CLR, the reset event and LDACC (40_init_seed.md R65, R66, 70_reset_and_hazards.md
R125). -/

namespace Sys2Proof.Machine

/-- Settles O11: CLR answers the reset block with the host's list, and every other command has no effect in the DONE
state. -/
theorem clrStartsAComputation : Obligations.ClrStartsAComputation := by
  refine ⟨exec_eq .clr, fun s t h => ?_, fun i s t hdone h changes => ?_, rfl, fun cw => ?_⟩
  · rw [exec_eq] at h
    cases h
    exact ⟨rfl, rfl, exec_eq .clr _⟩
  · by_contra hi
    rw [exec_eq, Block.apply_done hdone hi, State.withBlock_self] at h
    exact changes (Host.Outcome.next.inj h).symm
  · obtain ⟨-, decodes_clr, -⟩ := decodeByOperationCode cw
    exact decodes_clr

/-- The second of two writes of one accumulator wins. -/
theorem Accs.write_write (x : Accs) (r : AccName) (v w : Acc64) : (x.write r v).write r w = x.write r w := by
  refine Accs.eq_of_read fun q => ?_
  simp only [Accs.read_write]
  split_ifs <;> rfl

/-- In either state of DONE the second of two loads of one accumulator wins (40_init_seed.md R66). -/
theorem Block.apply_ldacc_ldacc (bl : Block) (r : AccName) (v w : Acc64) :
    (bl.apply (.ldacc r v)).apply (.ldacc r w) = bl.apply (.ldacc r w) := by
  cases hd : bl.done with
  | true => rw [Block.apply_done (i := .ldacc r v) hd (by simp)]
  | false => simp [Block.apply_ldacc, hd, Block.loadAcc, Accs.write_write]

/-- Settles O12: in the RUN state the load is one write of the accumulators, in the DONE state it is nothing. -/
theorem ldaccLoadsOneAccumulator : Obligations.LdaccLoadsOneAccumulator := by
  obtain ⟨-, -, -, -, -, -, -, canonical_word⟩ := decodeEncodeRoundTrip
  refine ⟨fun r v s hrun => ⟨_, exec_eq _ s, ?_⟩, fun r v s hdone => ?_, fun r v w s t h => ?_, canonical_word,
    fun cw => ?_⟩
  · rw [State.withBlock_block, Block.apply_ldacc hrun, Block.loadAcc_accs]
    refine ⟨?_, fun q hq => ?_, rfl, hrun, rfl⟩
    · rw [Accs.read_write, if_pos rfl]
    · rw [Accs.read_write, if_neg hq]
  · rw [exec_eq, Block.apply_done hdone (by simp), State.withBlock_self]
  · rw [exec_eq] at h
    cases h
    rw [exec_eq, exec_eq, State.withBlock_block, Block.apply_ldacc_ldacc]
    rfl
  · obtain ⟨-, -, -, -, -, decodes_ldacc⟩ := decodeByOperationCode cw
    exact decodes_ldacc

/-- A CLR or a reset event answers the same block from every block (40_init_seed.md R65, 70_reset_and_hazards.md R125). -/
theorem Block.react_restarts {e : Event} (h : e.restarts = true) (bl : Block) : bl.react e = Block.reset := by
  cases e with
  | reset => rfl
  | accept cw =>
    have is_clr : decode cw = .clr := of_decide_eq_true h
    rw [Block.react, is_clr, Block.apply]

/-- Settles O32: both runs continue from the reset block. -/
theorem restartForgetsThePast : Obligations.RestartForgetsThePast := by
  intro e bl bl' events h
  rw [runAll_facing, runAll_facing, List.foldl_cons, List.foldl_cons, Block.react_restarts h bl,
    Block.react_restarts h bl']

end Sys2Proof.Machine
end

section
/-! The seed that CLR and loads of distinct accumulators leave (40_init_seed.md R67, 42_finish_result.md R106). -/

namespace Sys2Proof.Machine

/-- The writes of a list of loads, the first load first. -/
def Accs.writeAll (x : Accs) (loads : List (AccName × Acc64)) : Accs := loads.foldl (fun y p => y.write p.1 p.2) x

/-- In the RUN state loads write the accumulators one after another and change nothing else (40_init_seed.md R66). -/
theorem foldl_apply_ldacc (x : Accs) (pend : List Byte) (loads : List (AccName × Acc64)) :
    (loads.map fun p => Instr.ldacc p.1 p.2).foldl Block.apply ⟨x, pend, false⟩ = ⟨x.writeAll loads, pend, false⟩ := by
  induction loads generalizing x with
  | nil => rfl
  | cons p loads ih =>
    rw [List.map_cons, List.foldl_cons, Block.apply_ldacc rfl]
    exact ih (x.write p.1 p.2)

/-- A load in a list of loads of distinct accumulators is the one that looking its accumulator up finds. -/
theorem lookup_of_mem {loads : List (AccName × Acc64)} (distinct : (loads.map Prod.fst).Nodup)
    {p : AccName × Acc64} (h : p ∈ loads) : loads.lookup p.1 = some p.2 := by
  induction loads with
  | nil => cases h
  | cons q loads ih =>
    rw [List.map_cons, List.nodup_cons] at distinct
    obtain ⟨hfresh, hdistinct⟩ := distinct
    obtain rfl | hp := List.mem_cons.mp h
    · exact List.lookup_cons_self
    · have hne : p.1 ≠ q.1 := fun heq => hfresh (heq ▸ List.mem_map_of_mem hp)
      rw [List.lookup_cons, beq_false_of_ne hne, ih hdistinct hp]

theorem lookup_of_not_mem {loads : List (AccName × Acc64)} {r : AccName} (h : r ∉ loads.map Prod.fst) :
    loads.lookup r = none := by
  rw [List.lookup_eq_none_iff]
  exact fun p hp => bne_iff_ne.mpr fun heq => h (heq ▸ List.mem_map_of_mem hp)

/-- An accumulator that one of the distinct loads names reads as loaded, any other as before (40_init_seed.md R67). -/
theorem Accs.read_writeAll {loads : List (AccName × Acc64)} (distinct : (loads.map Prod.fst).Nodup) (x : Accs)
    (r : AccName) : (x.writeAll loads).read r = (loads.lookup r).getD (x.read r) := by
  induction loads generalizing x with
  | nil => rfl
  | cons p loads ih =>
    rw [List.map_cons, List.nodup_cons] at distinct
    obtain ⟨hfresh, hdistinct⟩ := distinct
    have later_loads : (x.writeAll (p :: loads)).read r = (loads.lookup r).getD ((x.write p.1 p.2).read r) :=
      ih hdistinct (x.write p.1 p.2)
    rw [later_loads, Accs.read_write]
    by_cases hr : r = p.1
    · rw [hr, lookup_of_not_mem hfresh, List.lookup_cons_self, if_pos rfl]
      rfl
    · rw [List.lookup_cons, beq_false_of_ne hr, if_neg hr]

/-- An accumulator's seed value, read through the seed (42_finish_result.md R106). -/
theorem Accs.read_ofLoads (loads : List (AccName × Acc64)) (r : AccName) :
    (Accs.ofLoads loads).read r = (loads.lookup r).getD 0 := by
  cases r <;> rfl

theorem Accs.read_zero (r : AccName) : Accs.zero.read r = 0 := by
  cases r <;> rfl

/-- Distinct loads from zero leave the seed they stand for (40_init_seed.md R67, 42_finish_result.md R106). -/
theorem Accs.zero_writeAll {loads : List (AccName × Acc64)} (distinct : (loads.map Prod.fst).Nodup) :
    Accs.zero.writeAll loads = Accs.ofLoads loads := by
  refine Accs.eq_of_read fun r => ?_
  rw [Accs.read_writeAll distinct, Accs.read_zero, Accs.read_ofLoads]

/-- CLR and distinct loads leave the seed of the loads in the RUN state, from every block (40_init_seed.md R67). -/
theorem foldl_apply_seed {loads : List (AccName × Acc64)} (distinct : (loads.map Prod.fst).Nodup) (bl : Block) :
    (Instr.clr :: loads.map fun p => Instr.ldacc p.1 p.2).foldl Block.apply bl = ⟨Accs.ofLoads loads, [], false⟩ := by
  rw [← Accs.zero_writeAll distinct]
  exact foldl_apply_ldacc Accs.zero [] loads

/-- Settles O43: the seed of the loads holds each loaded value, and 0 where there is no load. -/
theorem seedingLoadsTheAccumulators : Obligations.SeedingLoadsTheAccumulators := by
  intro bl loads distinct
  refine ⟨Accs.ofLoads loads, ?_, fun p hp => ?_, fun r hr => ?_⟩
  · rw [runCommands_eq, foldl_apply_seed distinct]
  · rw [Accs.read_ofLoads, lookup_of_mem distinct hp, Option.getD_some]
  · rw [Accs.read_ofLoads, lookup_of_not_mem hr, Option.getD_none]

end Sys2Proof.Machine
end

section
/-! ABSORB as integers modulo 2^64, and as exact integers reduced once at the end (41_data_ingest.md R75, R81, R83). -/

namespace Sys2Proof.Machine

theorem zext64_toNat (v : Word) : (zext64 v).toNat = v.toNat := BitVec.toNat_setWidth_of_le (by decide)

/-- Settles O17: each line is one addition modulo 2^64, and the Word is widened with zeros. -/
theorem absorbAddsInOrder : Obligations.AbsorbAddsInOrder := by
  intro x v
  rw [← zext64_toNat v]
  exact ⟨BitVec.toNat_add _ _, BitVec.toNat_add _ _, BitVec.toNat_add _ _, BitVec.toNat_add _ _⟩

/-- Settles O18: each line of ABSORB with the line before it substituted in. -/
theorem absorbFromOldValues : Obligations.AbsorbFromOldValues := by
  refine ⟨fun x v => ?_, by decide, by decide⟩
  obtain ⟨line_a, line_b, line_c, line_d⟩ := absorbAddsInOrder x v
  omega

/-- ABSORB of a sequence of Words, without any reduction modulo 2^64. -/
def ExactSums.absorbAll (e : ExactSums) (vs : List Word) : ExactSums := vs.foldl ExactSums.absorb e

theorem ExactSums.absorbAll_cons (e : ExactSums) (v : Word) (vs : List Word) :
    e.absorbAll (v :: vs) = (e.absorb v).absorbAll vs := rfl

theorem exactSums_eq (vs : List Word) : exactSums vs = ExactSums.absorbAll ⟨0, 0, 0, 0⟩ vs := rfl

/-- The four sums reduced modulo 2^64. -/
def ExactSums.reduce (e : ExactSums) : Accs :=
  ⟨BitVec.ofNat 64 e.a, BitVec.ofNat 64 e.b, BitVec.ofNat 64 e.c, BitVec.ofNat 64 e.d⟩

/-- The four accumulators as integers. -/
def Accs.toExact (x : Accs) : ExactSums := ⟨x.a.toNat, x.b.toNat, x.c.toNat, x.d.toNat⟩

theorem Accs.reduce_toExact (x : Accs) : x.toExact.reduce = x := by
  simp [Accs.toExact, ExactSums.reduce]

/-- Reducing before an ABSORB or after it gives the same sums (41_data_ingest.md R81). -/
theorem ExactSums.reduce_absorb (e : ExactSums) (v : Word) : e.reduce.absorb v = (e.absorb v).reduce := by
  have widened : zext64 v = BitVec.ofNat 64 v.toNat := by
    apply BitVec.eq_of_toNat_eq
    rw [zext64_toNat, BitVec.toNat_ofNat, Nat.mod_eq_of_lt (by omega)]
  simp only [Accs.absorb_eq, ExactSums.reduce, ExactSums.absorb, BitVec.ofNat_add, widened]

theorem ExactSums.reduce_absorbAll (e : ExactSums) (vs : List Word) :
    e.reduce.absorbAll vs = (e.absorbAll vs).reduce :=
  List.foldl_hom ExactSums.reduce ExactSums.reduce_absorb

/-- The accumulators after any Words are the exact sums reduced once (41_data_ingest.md R81). -/
theorem Accs.absorbAll_eq_reduce (x : Accs) (vs : List Word) : x.absorbAll vs = (x.toExact.absorbAll vs).reduce := by
  rw [← ExactSums.reduce_absorbAll, Accs.reduce_toExact]

/-- Settles O22: from the zero start, whose exact sums are zero. -/
theorem sumsAreExactSumsReduced : Obligations.SumsAreExactSumsReduced := by
  intro vs
  have reduced_once : Accs.zero.absorbAll vs = (exactSums vs).reduce := Accs.absorbAll_eq_reduce Accs.zero vs
  rw [reduced_once]
  exact ⟨BitVec.toNat_ofNat _ _, BitVec.toNat_ofNat _ _, BitVec.toNat_ofNat _ _, BitVec.toNat_ofNat _ _⟩

end Sys2Proof.Machine
end

section
/-! The binomial sums of 41_data_ingest.md R84, and the numbers of Words at which they reach 2^64 (R85). -/

namespace Sys2Proof.Machine

/-- The sum of Words of 41_data_ingest.md R84 with the weights `C(n-i+k, k)`. -/
def binomialSum (k : ℕ) (vs : List Word) : ℕ :=
  ∑ j ∈ Finset.range vs.length, (vs.length - (j + 1) + k).choose k * (vs.getD j 0).toNat

/-- A Word in front takes the largest weight and leaves the weights of the others. -/
theorem binomialSum_cons (k : ℕ) (v : Word) (vs : List Word) :
    binomialSum k (v :: vs) = binomialSum k vs + (vs.length + k).choose k * v.toNat := by
  simp [binomialSum, Finset.sum_range_succ']

/-- The exact sums in closed form, from any start (41_data_ingest.md R84). -/
theorem ExactSums.absorbAll_eq (e : ExactSums) (vs : List Word) :
    e.absorbAll vs =
      ⟨e.a + binomialSum 0 vs,
       e.b + vs.length * e.a + binomialSum 1 vs,
       e.c + vs.length * e.b + (vs.length + 1).choose 2 * e.a + binomialSum 2 vs,
       e.d + vs.length * e.c + (vs.length + 1).choose 2 * e.b + (vs.length + 2).choose 3 * e.a + binomialSum 3 vs⟩ := by
  induction vs generalizing e with
  | nil => simp [ExactSums.absorbAll, binomialSum]
  | cons v vs ih =>
    have pascal2 : (vs.length + 2).choose 2 = vs.length + 1 + (vs.length + 1).choose 2 := by
      rw [Nat.choose_succ_succ', Nat.choose_one_right]
    have pascal3 : (vs.length + 3).choose 3 = (vs.length + 2).choose 2 + (vs.length + 2).choose 3 :=
      Nat.choose_succ_succ' _ _
    rw [ExactSums.absorbAll_cons, ih]
    simp only [ExactSums.absorb, binomialSum_cons, List.length_cons, add_assoc, Nat.reduceAdd, pascal3, pascal2,
      Nat.choose_zero_right, Nat.choose_one_right, ExactSums.mk.injEq]
    refine ⟨?_, ?_, ?_, ?_⟩ <;> ring

/-- Equal Words add one more binomial coefficient up (41_data_ingest.md R84). -/
theorem binomialSum_replicate (k n : ℕ) (v : Word) :
    binomialSum k (List.replicate n v) = (n + k).choose (k + 1) * v.toNat := by
  induction n with
  | zero => simp [binomialSum]
  | succ n ih =>
    rw [List.replicate_succ, binomialSum_cons, ih, List.length_replicate, Nat.add_right_comm, Nat.choose_succ_succ']
    ring

theorem exactSums_eq_binomialSum (vs : List Word) :
    exactSums vs = ⟨binomialSum 0 vs, binomialSum 1 vs, binomialSum 2 vs, binomialSum 3 vs⟩ := by
  simp [exactSums_eq, ExactSums.absorbAll_eq]

theorem exactSums_replicate (n : ℕ) (v : Word) :
    exactSums (List.replicate n v) =
      ⟨n * v.toNat, (n + 1).choose 2 * v.toNat, (n + 2).choose 3 * v.toNat, (n + 3).choose 4 * v.toNat⟩ := by
  simp [exactSums_eq_binomialSum, binomialSum_replicate]

/-- Settles O23: the exact closed forms, reduced once. -/
theorem closedFormsOfTheSums : Obligations.ClosedFormsOfTheSums := by
  refine ⟨fun x vs n hn => ?_, fun v n => ?_⟩
  · subst hn
    rw [Accs.absorbAll_eq_reduce, ExactSums.absorbAll_eq]
    simp [ExactSums.reduce, Accs.toExact, binomialSum]
  · have reduced := sumsAreExactSumsReduced (List.replicate n v)
    rwa [exactSums_replicate] at reduced

/-- The largest Word adds the most, at every weight (41_data_ingest.md R85). -/
theorem binomialSum_le (k : ℕ) (vs : List Word) :
    binomialSum k vs ≤ binomialSum k (List.replicate vs.length 0xFFFFFFFF) := by
  induction vs with
  | nil => rfl
  | cons v vs ih =>
    have largest : v.toNat ≤ (0xFFFFFFFF : Word).toNat := Nat.le_pred_of_lt v.isLt
    rw [List.length_cons, List.replicate_succ, binomialSum_cons, binomialSum_cons, List.length_replicate]
    exact Nat.add_le_add ih (Nat.mul_le_mul_left _ largest)

/-- The sum of `n` largest Words reaches 2^64 first at `m + 1` if it is below at `m` Words and not at `m + 1`. -/
theorem binomialSum_reaches_iff {k m : ℕ}
    (below : (m + k).descFactorial (k + 1) / (k + 1).factorial * 0xFFFFFFFF < 2 ^ 64)
    (reached : 2 ^ 64 ≤ (m + 1 + k).descFactorial (k + 1) / (k + 1).factorial * 0xFFFFFFFF) (n : ℕ) :
    2 ^ 64 ≤ binomialSum k (List.replicate n 0xFFFFFFFF) ↔ m + 1 ≤ n := by
  have largest : (0xFFFFFFFF : Word).toNat = 0xFFFFFFFF := rfl
  have grows {p q : ℕ} (h : p ≤ q) : (p + k).choose (k + 1) * 0xFFFFFFFF ≤ (q + k).choose (k + 1) * 0xFFFFFFFF :=
    Nat.mul_le_mul_right _ (Nat.choose_le_choose _ (Nat.add_le_add_right h k))
  rw [← Nat.choose_eq_descFactorial_div_factorial] at below reached
  rw [binomialSum_replicate, largest]
  refine ⟨fun h => ?_, fun h => reached.trans (grows h)⟩
  by_contra hn
  exact absurd (h.trans (grows (Nat.le_of_not_lt hn))) (Nat.not_le_of_lt below)

/-- Fewer Words than the largest Word needs to reach 2^64 do not reach it (41_data_ingest.md R85). -/
theorem binomialSum_lt {k t : ℕ} (reaches_iff : ∀ n, 2 ^ 64 ≤ binomialSum k (List.replicate n 0xFFFFFFFF) ↔ t ≤ n)
    {vs : List Word} (h : vs.length < t) : binomialSum k vs < 2 ^ 64 :=
  (binomialSum_le k vs).trans_lt (Nat.lt_of_not_le (mt (reaches_iff vs.length).mp (Nat.not_le_of_lt h)))

/-- Settles O24: the exact sums of R85 are binomial sums, which the largest Words maximize and which grow with the
number of Words. -/
theorem sumsWrapFirstAt : Obligations.SumsWrapFirstAt := by
  have wraps_d := binomialSum_reaches_iff (k := 3) (m := 565) (by decide) (by decide)
  have wraps_c := binomialSum_reaches_iff (k := 2) (m := 2952) (by decide) (by decide)
  have wraps_b := binomialSum_reaches_iff (k := 1) (m := 92681) (by decide) (by decide)
  have wraps_a := binomialSum_reaches_iff (k := 0) (m := 4294967297) (by decide) (by decide)
  unfold Obligations.SumsWrapFirstAt
  simp only [exactSums_eq_binomialSum]
  refine ⟨wraps_d, wraps_c, wraps_b, wraps_a, fun vs => ?_, fun vs hlen => ?_⟩
  · exact ⟨binomialSum_le 0 vs, binomialSum_le 1 vs, binomialSum_le 2 vs, binomialSum_le 3 vs⟩
  · exact ⟨binomialSum_lt wraps_a (by omega), binomialSum_lt wraps_b (by omega), binomialSum_lt wraps_c (by omega),
      binomialSum_lt wraps_d hlen⟩

end Sys2Proof.Machine
end

section
/-! The reference pipeline (41_data_ingest.md R88). -/

namespace Sys2Proof.Machine

/-- Three cycles without a Word leave nothing in flight. -/
theorem Pipe.drain_eq_empty (p : Pipe) : p.drain = Pipe.empty p.drain.accs := rfl

/-- A cycle without a Word does not change what the pipeline drains to. -/
theorem Pipe.drain_cycle_none (p : Pipe) : (p.cycle none).drain = p.drain := rfl

/-- A Word that enters is absorbed after everything in flight: the stage of each accumulator has added what came before
the Word when the Word reaches it. -/
theorem Pipe.drain_cycle_some (p : Pipe) (v : Word) : (p.cycle (some v)).drain.accs = p.drain.accs.absorb v := rfl

/-- What any cycles leave to drain is what ABSORB makes of the Words that entered. -/
theorem Pipe.drain_cycles (p : Pipe) (entering : List (Option Word)) :
    (p.cycles entering).drain = Pipe.empty (p.drain.accs.absorbAll (entering.filterMap id)) := by
  induction entering generalizing p with
  | nil => exact p.drain_eq_empty
  | cons e entering ih =>
    have first_cycle : p.cycles (e :: entering) = (p.cycle e).cycles entering := rfl
    rw [first_cycle, ih]
    cases e with
    | none => rw [Pipe.drain_cycle_none, List.filterMap_cons_none rfl]
    | some v => rw [Pipe.drain_cycle_some, List.filterMap_cons_some (b := v) (f := id) rfl]; rfl

/-- Settles O50: a pipeline with nothing in flight drains to its own accumulators. -/
theorem pipelineMeetsAbsorb : Obligations.PipelineMeetsAbsorb := fun x entering =>
  (Pipe.empty x).drain_cycles entering

end Sys2Proof.Machine
end

section
/-! SUPPORT. Byte sequences as little-endian numbers, a payload's lanes, and a sequence of one group and a trailing group
(00_scope.md R7, 20_memory.md R33, R35). -/

namespace Sys2Proof.Machine

theorem leNat_eq_ofDigits (bs : List Byte) : leNat bs = Nat.ofDigits 256 (bs.map BitVec.toNat) := by
  induction bs with
  | nil => rfl
  | cons b bs ih => rw [leNat, ih, List.map_cons, Nat.ofDigits_cons]

theorem leNat_append (bs cs : List Byte) : leNat (bs ++ cs) = leNat bs + 256 ^ bs.length * leNat cs := by
  simp only [leNat_eq_ofDigits, List.map_append, Nat.ofDigits_append, List.length_map]

theorem leNat_take (bs : List Byte) (n : ℕ) : leNat (bs.take n) = leNat bs % 256 ^ n := by
  have digits : ∀ d ∈ bs.map BitVec.toNat, d < 256 := List.forall_mem_map.mpr fun b _ => b.isLt
  simp only [leNat_eq_ofDigits, List.map_take, Nat.ofDigits_mod_pow_eq_ofDigits_take n (by decide) _ digits]

theorem lanes_length (w : Word) : (lanes w).length = 4 := rfl

/-- The bytes of a payload are its little-endian bytes (20_memory.md R33). -/
theorem leNat_lanes (w : Word) : leNat (lanes w) = w.toNat := by
  rw [lanes, leNat_group, groupWord_lanes]

/-- Four to seven bytes are one Word and a trailing group. -/
theorem wordsOf_of_one_group {data : List Byte} (h : data.length / 4 = 1) :
    wordsOf data = [BitVec.ofNat 32 (leNat (data.take 4))] := by
  have one_word : nwords data = 1 := h
  rw [wordsOf, one_word]
  rfl

theorem tailOf_of_one_group {data : List Byte} (h : data.length / 4 = 1) : tailOf data = data.drop 4 := by
  have one_word : nwords data = 1 := h
  rw [tailOf, one_word, mul_one]

/-- A lane of a payload is a quotient modulo 2^8 (20_memory.md R33). -/
theorem laneOf_eq_ofNat (k : ℕ) (w : Word) : laneOf k w = BitVec.ofNat 8 (w.toNat / 2 ^ (8 * k)) := by
  apply BitVec.eq_of_toNat_eq
  rw [laneOf_toNat, BitVec.toNat_ofNat]

end Sys2Proof.Machine
end

section
/-! The data commands and PUSHBYTE (41_data_ingest.md R76 to R80). -/

namespace Sys2Proof.Machine

/-- Settles O19: a full group's Word is known by its number, and any other byte is appended. -/
theorem pushByteCompletesGroups : Obligations.PushByteCompletesGroups := by
  refine ⟨fun bl b p0 p1 p2 v hp hv => ?_, fun bl b hp => Block.pushByte_appends hp b, fun bl b hp => ?_⟩
  · obtain rfl : v = groupWord p0 p1 p2 b := BitVec.eq_of_toNat_eq (hv.trans (groupWord_toNat p0 p1 p2 b).symm)
    exact Block.pushByte_completes hp b
  · obtain ⟨p0, p1, p2, full, pushed⟩ | ⟨open_group, pushed⟩ := Block.pushByte_cases bl b
    · simp [pushed, full]
    · rw [pushed, List.length_append, List.length_singleton, Nat.mod_eq_of_lt (by omega)]

/-- In the DONE state every command but CLR answers the same machine (42_finish_result.md R107). -/
theorem exec_of_done {i : Instr} (hi : i ≠ .clr) {s : State} (h : s.block.done = true) : exec i s = .next s := by
  rw [exec_eq, Block.apply_done h hi, State.withBlock_self]

/-- In the RUN state a data command pushes its bytes (41_data_ingest.md R77, R78). -/
theorem exec_data_of_run {i : Instr} (hi : isData i = true) {s : State} (h : s.block.done = false) :
    exec i s = .next (s.withBlock (s.block.pushAll (bytesOf i))) := by
  rw [exec_eq, Block.apply_data h hi]

/-- Settles O13: in the RUN state PUTB is one PUSHBYTE, in the DONE state it is nothing. -/
theorem putbSuppliesOneByte : Obligations.PutbSuppliesOneByte := by
  obtain ⟨-, -, -, -, canonical_word, -⟩ := decodeEncodeRoundTrip
  have runs {s : State} (hrun : s.block.done = false) (b : Byte) :
      exec (.putb b) s = .next (s.withBlock (s.block.pushByte b)) := exec_data_of_run rfl hrun
  refine ⟨fun b s p0 p1 p2 hrun hp => ?_, fun b s hrun hp => ?_, fun b s hdone => exec_of_done (by simp) hdone,
    canonical_word, fun cw => ?_⟩
  · rw [runs hrun, Block.pushByte_completes hp, hrun]
    rfl
  · rw [runs hrun, Block.pushByte_appends hp, hrun]
    rfl
  · obtain ⟨-, -, decodes_putb, -⟩ := decodeByOperationCode cw
    exact decodes_putb

/-- The four bytes of a payload behind at most three pending ones: one Word is absorbed, which the payload's first bytes
complete, and its last bytes pend (41_data_ingest.md R79, R80). -/
theorem Block.pushWord_at_phase (x : Accs) {pend : List Byte} (h : pend.length ≤ 3) (done : Bool) (w : Word) :
    Block.pushWord ⟨x, pend, done⟩ w =
      ⟨x.absorb (BitVec.ofNat 32
          (leNat pend + 2 ^ (8 * pend.length) * (w.toNat % 2 ^ (8 * (4 - pend.length))))),
        (lanes w).drop (4 - pend.length), done⟩ := by
  have from_phase_0 : (⟨x, pend, done⟩ : Block) = Block.pushAll ⟨x, [], done⟩ pend := by
    rw [Block.pushAll_appends (by simp; omega), List.nil_append]
  have one_group : (pend ++ lanes w).length / 4 = 1 := by
    rw [List.length_append, lanes_length]
    omega
  have completed : (pend ++ lanes w).take 4 = pend ++ (lanes w).take (4 - pend.length) := by
    rw [List.take_append, List.take_of_length_le (by omega)]
  have left_over : (pend ++ lanes w).drop 4 = (lanes w).drop (4 - pend.length) := by
    rw [List.drop_append, List.drop_eq_nil_of_le (by omega), List.nil_append]
  rw [Block.pushWord_eq, from_phase_0, ← Block.pushAll_append, Block.pushAll_eq, wordsOf_of_one_group one_group,
    tailOf_of_one_group one_group, completed, left_over, leNat_append, leNat_take, leNat_lanes, pow_mul, pow_mul]
  rfl

/-- Settles O15: in the RUN state PUTW pushes the four bytes of its payload. -/
theorem putwAtEveryPhase : Obligations.PutwAtEveryPhase := by
  intro x pend imm32 rest hlen
  rw [← Block.pushWord_at_phase x hlen false imm32]
  exact exec_data_of_run rfl rfl

/-- In either state of DONE the lanes of a payload one by one do what the payload does (41_data_ingest.md R78). -/
theorem Block.apply_putw (bl : Block) (w : Word) :
    bl.apply (.putw w) = ((lanes w).map Instr.putb).foldl Block.apply bl := by
  cases hd : bl.done with
  | true => simp [lanes, Block.apply_done hd]
  | false => rw [Block.apply_data hd rfl, foldl_apply_data (by simp [isData]) hd, streamOf_map_putb, bytesOf]

/-- Settles O14: the lanes of the payload as PUTBs, one Word at any phase, and no effect in the DONE state. -/
theorem putwIsFourPutb : Obligations.PutwIsFourPutb := by
  obtain ⟨-, -, -, -, -, canonical_word, -⟩ := decodeEncodeRoundTrip
  refine ⟨fun w s => ?_, fun w s hdone => exec_of_done (by simp) hdone, fun w s hrun hlen => ?_, canonical_word,
    fun cw => ?_⟩
  · refine ⟨_, _, _, _, exec_eq _ _, exec_eq _ _, exec_eq _ _, exec_eq _ _, ?_⟩
    rw [exec_eq, Block.apply_putw]
    simp only [lanes, laneOf_eq_ofNat, mul_zero, pow_zero, Nat.div_one]
    rfl
  · have at_phase := Block.pushWord_at_phase s.block.accs hlen s.block.done w
    refine ⟨_, _, (exec_data_of_run rfl hrun).trans (congrArg (Host.Outcome.next ∘ s.withBlock) at_phase), rfl, ?_,
      hrun, rfl⟩
    show ((lanes w).drop (4 - s.block.pend.length)).length = s.block.pend.length
    rw [List.length_drop, lanes_length]
    omega
  · obtain ⟨-, -, -, decodes_putw, -⟩ := decodeByOperationCode cw
    exact decodes_putw

end Sys2Proof.Machine
end

section
/-! What the ports show, and what can happen to a held Result (42_finish_result.md R95, R96, R97, R107). -/

namespace Sys2Proof.Machine

theorem Block.obs_done {bl : Block} (h : bl.done = true) : bl.obs = (true, some bl.accs) := by
  rw [Block.obs, if_pos h, h]

theorem Block.obs_run {bl : Block} (h : bl.done = false) : bl.obs = (false, none) := by
  simp [Block.obs, h]

/-- Settles O29: the level is DONE, and it decides whether the Result is shown. -/
theorem portsShowTheHeldResult : Obligations.PortsShowTheHeldResult := fun _ =>
  ⟨rfl, Block.obs_done, Block.obs_run⟩

/-- Settles O16: in the RUN state END empties `pend` and sets DONE, in the DONE state it is nothing. -/
theorem endHoldsTheResult : Obligations.EndHoldsTheResult := by
  obtain ⟨-, -, -, -, -, -, canonical_word, -⟩ := decodeEncodeRoundTrip
  refine ⟨fun s hrun => ?_, fun s hdone => exec_of_done (by decide) hdone, canonical_word, fun cw => ?_⟩
  · rw [exec_eq, Block.apply_finish hrun]
    rfl
  · obtain ⟨-, -, -, -, decodes_finish, -⟩ := decodeByOperationCode cw
    exact decodes_finish

/-- In the DONE state every event but a CLR and a reset event has no effect (42_finish_result.md R107). -/
theorem Block.react_done {bl : Block} (h : bl.done = true) {e : Event} (he : e.restarts = false) :
    bl.react e = bl := by
  cases e with
  | reset => cases he
  | accept cw => exact Block.apply_done h (of_decide_eq_false he)

/-- Settles O25: the word is taken from the host's list, and its command has no effect. -/
theorem doneStateDropsCommands : Obligations.DoneStateDropsCommands := by
  refine ⟨fun i s hdone hi => exec_of_done hi hdone, fun bl cw rest hdone hcw => ?_⟩
  rw [step_cons, Block.react, Block.apply_done hdone hcw]

/-- Settles O30: no event of the run changes the block. -/
theorem resultIsHeldUntilRestart : Obligations.ResultIsHeldUntilRestart := by
  intro bl events hdone hevents
  have held : events.foldl Block.react bl = bl :=
    List.foldlRecOn (motive := (· = bl)) events Block.react rfl fun _ same e he => by
      rw [same, Block.react_done hdone (hevents e he)]
  exact ⟨_, runAll_facing bl events, held, by rw [held, Block.obs_done hdone]⟩

/-- Only an END leaves the RUN state (42_finish_result.md R98). -/
theorem Block.react_run {bl : Block} (h : bl.done = false) {e : Event}
    (he : ∀ cw, e = .accept cw → decode cw ≠ .finish) : (bl.react e).done = false := by
  cases e with
  | reset => rfl
  | accept cw =>
    by_cases hc : decode cw = .clr
    · rw [Block.react, hc]
      rfl
    · rw [Block.react, Block.apply_keeps_done bl hc (he cw rfl), h]

/-- Settles O31: every event of the run keeps the RUN state, which shows nothing. -/
theorem nothingIsShownWithoutEnd : Obligations.NothingIsShownWithoutEnd := by
  intro bl events hrun hevents
  have running : (events.foldl Block.react bl).done = false :=
    List.foldlRecOn (motive := fun b => b.done = false) events Block.react hrun fun _ h e he =>
      Block.react_run h fun cw accepted => hevents cw (accepted ▸ he)
  exact ⟨_, runAll_facing bl events, Block.obs_run running⟩

end Sys2Proof.Machine
end

section
/-! The laws of the contract function, and the same in the block (42_finish_result.md R101, R102, R104, R105). -/

namespace Sys2Proof.Machine

/-- The Words of two sequences one after another, when the first has no trailing group (20_memory.md R35). -/
theorem wordsOf_append {d1 : List Byte} (h : 4 ∣ d1.length) (d2 : List Byte) :
    wordsOf (d1 ++ d2) = wordsOf d1 ++ wordsOf d2 := by
  induction d1 using group_induction with
  | short d1 hshort =>
    obtain rfl : d1 = [] := List.eq_nil_of_length_eq_zero (Nat.eq_zero_of_dvd_of_lt h hshort)
    rfl
  | group b0 b1 b2 b3 rest ih =>
    have hrest : 4 ∣ rest.length := by simpa [Nat.add_assoc] using h
    simp only [List.cons_append, wordsOf_group, ih hrest]

theorem Accs.fold_append (s : Accs) {d1 : List Byte} (h : 4 ∣ d1.length) (d2 : List Byte) :
    s.fold (d1 ++ d2) = (s.fold d1).fold d2 := by
  simp only [foldAbsorbsTheWords _ _, wordsOf_append h, Accs.absorbAll, List.foldl_append]

theorem Accs.fold_short (s : Accs) {data : List Byte} (h : data.length < 4) : s.fold data = s := by
  rw [foldAbsorbsTheWords, wordsOf_short h]
  rfl

/-- The complete groups of a sequence, as R101 cuts them out. -/
theorem length_complete_groups (data : List Byte) :
    (data.take (4 * (data.length / 4))).length = 4 * (data.length / 4) :=
  List.length_take_of_le (Nat.mul_div_le _ _)

/-- The trailing group adds nothing to the sums (42_finish_result.md R101). -/
theorem Accs.fold_complete_groups (s : Accs) (data : List Byte) :
    s.fold (data.take (4 * (data.length / 4))) = s.fold data := by
  have whole : 4 ∣ (data.take (4 * (data.length / 4))).length := ⟨_, length_complete_groups data⟩
  have trailing : (tailOf data).length < 4 := by rw [tailOf_length]; exact Nat.mod_lt _ (by decide)
  calc s.fold (data.take (4 * (data.length / 4)))
      = (s.fold (data.take (4 * (data.length / 4)))).fold (tailOf data) := (Accs.fold_short _ trailing).symm
    _ = s.fold (data.take (4 * (data.length / 4)) ++ tailOf data) := (s.fold_append whole _).symm
    _ = s.fold data := congrArg s.fold (List.take_append_drop _ data)

theorem tailOf_complete_groups (data : List Byte) : tailOf (data.take (4 * (data.length / 4))) = [] := by
  apply List.eq_nil_of_length_eq_zero
  rw [tailOf_length, length_complete_groups, Nat.mul_mod_right]

/-- Settles O46: the trailing group adds nothing to the sums and is all that stays pending, and END empties `pend`. -/
theorem trailingGroupIsDropped : Obligations.TrailingGroupIsDropped := by
  refine ⟨fun data => (Accs.zero.fold_complete_groups data).symm, by decide, fun x cmds whole hcmds hwhole hcut => ?_⟩
  refine ⟨_, _, streamedBytesAreFolded x cmds hcmds, ?_, rfl⟩
  rw [streamedBytesAreFolded x whole hwhole, hcut, Accs.fold_complete_groups, tailOf_complete_groups]

/-- Settles O47: input without a complete group leaves the zero start. -/
theorem shortInputGivesZero : Obligations.ShortInputGivesZero :=
  ⟨rfl, fun _ h => Accs.zero.fold_short h⟩

/-- In the DONE state data commands have no effect (42_finish_result.md R107). -/
theorem foldl_apply_data_done {cmds : List Instr} (h : cmds.all isData = true) {bl : Block} (hd : bl.done = true) :
    cmds.foldl Block.apply bl = bl :=
  List.foldlRecOn (motive := (· = bl)) cmds Block.apply rfl fun _ same i hi => by
    have not_clr : i ≠ .clr := fun hc => by simpa [hc, isData] using List.all_eq_true.mp h i hi
    rw [same, Block.apply_done hd not_clr]

/-- In either state of DONE data commands that carry the same bytes lead to the same block
(42_finish_result.md R105). -/
theorem foldl_apply_data_congr {cmds1 cmds2 : List Instr} (h1 : cmds1.all isData = true)
    (h2 : cmds2.all isData = true) (h : streamOf cmds1 = streamOf cmds2) (bl : Block) :
    cmds1.foldl Block.apply bl = cmds2.foldl Block.apply bl := by
  cases hd : bl.done with
  | false => rw [foldl_apply_data h1 hd, foldl_apply_data h2 hd, h]
  | true => rw [foldl_apply_data_done h1 hd, foldl_apply_data_done h2 hd]

/-- Settles O49: the words in between lead to the same block, from which the words behind them run. -/
theorem widthsMakeNoDifference : Obligations.WidthsMakeNoDifference := by
  intro bl before after cws1 cws2 h1 h2 h
  simp only [runAll_acceptAll, List.map_append, List.foldl_append, foldl_apply_data_congr h1 h2 h]

end Sys2Proof.Machine
end

section
/-! SUPPORT. The commands of a well-formed computation, and of several one after another (42_finish_result.md R106). -/

namespace Sys2Proof

/-- The commands of a list of loads. -/
theorem splitLoads_eq (cmds : List Instr) :
    ((splitLoads cmds).1.map fun p => Instr.ldacc p.1 p.2) ++ (splitLoads cmds).2 = cmds := by
  induction cmds with
  | nil => rfl
  | cons i rest ih =>
    cases i with
    | ldacc r v => exact congrArg (Instr.ldacc r v :: ·) ih
    | clr => rfl
    | putb => rfl
    | putw => rfl
    | finish => rfl

/-- Commands that end the input with given bytes are data commands that carry them, and END. -/
theorem dataThenEnd?_some {cmds : List Instr} {data : List Byte} (h : dataThenEnd? cmds = some data) :
    ∃ body, body.all isData = true ∧ streamOf body = data ∧ cmds = body ++ [.finish] := by
  induction cmds generalizing data with
  | nil => cases h
  | cons i rest ih =>
    cases i with
    | clr => cases h
    | ldacc => cases h
    | finish =>
      cases rest with
      | nil => cases h; exact ⟨[], rfl, rfl, rfl⟩
      | cons => cases h
    | putb b =>
      obtain ⟨bytes, hrest, rfl⟩ := Option.map_eq_some_iff.mp h
      obtain ⟨body, hbody, rfl, rfl⟩ := ih hrest
      exact ⟨.putb b :: body, hbody, rfl, rfl⟩
    | putw w =>
      obtain ⟨bytes, hrest, rfl⟩ := Option.map_eq_some_iff.mp h
      obtain ⟨body, hbody, rfl, rfl⟩ := ih hrest
      exact ⟨.putw w :: body, hbody, rfl, rfl⟩

/-- A well-formed computation without its CLR: distinct loads, data commands that carry its bytes, and END. -/
theorem afterClear?_some {cmds : List Instr} {loads : List (AccName × Acc64)} {data : List Byte}
    (h : afterClear? cmds = some (loads, data)) :
    (loads.map Prod.fst).Nodup ∧ ∃ body, body.all isData = true ∧ streamOf body = data ∧
      cmds = (loads.map fun p => .ldacc p.1 p.2) ++ body ++ [.finish] := by
  unfold afterClear? at h
  split at h
  · next distinct =>
    obtain ⟨bytes, hdata, heq⟩ := Option.map_eq_some_iff.mp h
    cases heq
    obtain ⟨body, hbody, hstream, hrest⟩ := dataThenEnd?_some hdata
    refine ⟨distinct, body, hbody, hstream, ?_⟩
    rw [List.append_assoc, ← hrest, splitLoads_eq]
  · cases h

/-- A well-formed computation is CLR and what may follow it. -/
theorem computation?_some {cmds : List Instr} {comp : SeededInput} (h : computation? cmds = some comp) :
    ∃ rest, cmds = .clr :: rest ∧ afterClear? rest = some comp := by
  unfold computation? at h
  split at h
  · exact ⟨_, rfl, h⟩
  · cases h

/-- END is the last command and stands nowhere else. -/
def EndsOnce (part : List Instr) : Prop := ∃ body, .finish ∉ body ∧ part = body ++ [.finish]

theorem EndsOnce.cons {part : List Instr} (h : EndsOnce part) {i : Instr} (hi : i ≠ .finish) :
    EndsOnce (i :: part) := by
  obtain ⟨body, hbody, rfl⟩ := h
  exact ⟨i :: body, List.not_mem_cons_of_ne_of_not_mem hi.symm hbody, rfl⟩

theorem endsOnce_of_afterClear? {cmds : List Instr} {comp : SeededInput} (h : afterClear? cmds = some comp) :
    EndsOnce cmds := by
  obtain ⟨-, body, hbody, -, rfl⟩ := afterClear?_some h
  refine ⟨_, fun hmem => ?_, rfl⟩
  obtain hload | hdata := List.mem_append.mp hmem
  · obtain ⟨_, -, heq⟩ := List.mem_map.mp hload
    cases heq
  · exact absurd (List.all_eq_true.mp hbody _ hdata) (by decide)

theorem endsOnce_of_computation? {cmds : List Instr} {comp : SeededInput} (h : computation? cmds = some comp) :
    EndsOnce cmds := by
  obtain ⟨rest, rfl, hrest⟩ := computation?_some h
  exact (endsOnce_of_afterClear? hrest).cons (by decide)

/-- Each part is a well-formed computation, of the input at its place. -/
abbrev AreComputations (parts : List (List Instr)) (comps : List SeededInput) : Prop :=
  List.Forall₂ (fun part comp => computation? part = some comp) parts comps

theorem map_computation?_iff (parts : List (List Instr)) (comps : List SeededInput) :
    parts.map computation? = comps.map some ↔ AreComputations parts comps := by
  rw [← List.forall₂_eq_eq_eq, List.forall₂_map_left_iff, List.forall₂_map_right_iff]

/-- Cutting a part off that has one END, its last command. -/
theorem cutAfterEnd_endsOnce {part : List Instr} (h : EndsOnce part) (rest : List Instr) :
    cutAfterEnd (part ++ rest) = part :: cutAfterEnd rest := by
  obtain ⟨body, hbody, rfl⟩ := h
  rw [List.append_assoc, List.singleton_append, cutAfterEnd_append hbody]

/-- Computations one after another are cut into just these computations. -/
theorem cutAfterEnd_computations {parts : List (List Instr)} {comps : List SeededInput}
    (h : AreComputations parts comps) : cutAfterEnd parts.flatten = parts := by
  induction h with
  | nil => rfl
  | cons hpart _ ih => rw [List.flatten_cons, cutAfterEnd_endsOnce (endsOnce_of_computation? hpart), ih]

/-- A well-formed sequence of computations is cut into one or more computations. -/
theorem computations?_iff_cut (cmds : List Instr) (comps : List SeededInput) :
    computations? cmds = some comps ↔ cutAfterEnd cmds ≠ [] ∧ AreComputations (cutAfterEnd cmds) comps := by
  rw [computations?]
  cases cutAfterEnd cmds with
  | nil => simp
  | cons part parts => simp [← map_computation?_iff, eachComputation?_eq_some]

theorem computations?_iff (cmds : List Instr) (comps : List SeededInput) :
    computations? cmds = some comps ↔ ∃ parts, parts ≠ [] ∧ parts.flatten = cmds ∧ AreComputations parts comps := by
  rw [computations?_iff_cut]
  constructor
  · rintro ⟨hne, hparts⟩
    exact ⟨_, hne, cutAfterEnd_flatten cmds, hparts⟩
  · rintro ⟨parts, hne, rfl, hparts⟩
    rw [cutAfterEnd_computations hparts]
    exact ⟨hne, hparts⟩

/-- A computation that may omit its CLR has it or omits it; what follows a CLR does not begin with another. -/
theorem computationAfterReset?_iff (cmds : List Instr) (comp : SeededInput) :
    computationAfterReset? cmds = some comp ↔ computation? cmds = some comp ∨ afterClear? cmds = some comp := by
  unfold computationAfterReset?
  cases h : computation? cmds with
  | none => simp
  | some other =>
    obtain ⟨rest, rfl, -⟩ := computation?_some h
    have no_second_clr : afterClear? (.clr :: rest) = none := rfl
    simp [no_second_clr]

theorem computationsAfterReset?_iff (cmds : List Instr) (comps : List SeededInput) :
    computationsAfterReset? cmds = some comps ↔ ∃ first parts comp later,
      comps = comp :: later ∧ first ++ parts.flatten = cmds ∧
      (computation? first = some comp ∨ afterClear? first = some comp) ∧ AreComputations parts later := by
  constructor
  · intro h
    unfold computationsAfterReset? at h
    split at h
    · cases h
    · next first parts hcut =>
      split at h
      · next comp later hfirst hparts =>
        cases h
        rw [eachComputation?_eq_some, map_computation?_iff] at hparts
        refine ⟨first, parts, comp, later, rfl, ?_, (computationAfterReset?_iff first comp).mp hfirst, hparts⟩
        rw [← cutAfterEnd_flatten cmds, hcut, List.flatten_cons]
      · cases h
  · rintro ⟨first, parts, comp, later, rfl, rfl, hfirst, hparts⟩
    have ends : EndsOnce first := hfirst.elim endsOnce_of_computation? endsOnce_of_afterClear?
    have each : eachComputation? parts = some later := by rwa [eachComputation?_eq_some, map_computation?_iff]
    rw [computationsAfterReset?, cutAfterEnd_endsOnce ends, cutAfterEnd_computations hparts]
    simp only [(computationAfterReset?_iff first comp).mpr hfirst, each]

/-- Directly after a reset event the first computation has its CLR, or the sequence is well-formed behind a CLR. -/
theorem computations?_of_afterReset {cmds : List Instr} {comps : List SeededInput}
    (h : computationsAfterReset? cmds = some comps) :
    computations? cmds = some comps ∨ computations? (.clr :: cmds) = some comps := by
  obtain ⟨first, parts, comp, later, rfl, rfl, hfirst, hparts⟩ := (computationsAfterReset?_iff _ _).mp h
  rw [computations?_iff, computations?_iff]
  obtain hcomp | hafter := hfirst
  · exact .inl ⟨first :: parts, by simp, rfl, .cons hcomp hparts⟩
  · exact .inr ⟨(.clr :: first) :: parts, by simp, rfl, .cons hafter hparts⟩

end Sys2Proof
end

section
/-! SUPPORT. The ENDs of a well-formed sequence of computations (42_finish_result.md R106). -/

namespace Sys2Proof

/-- Of a list whose first `x` stands behind `body`, every split at an `x` is that one or one further behind. -/
theorem append_cons_eq_append_cons_cases {α : Type} {x : α} {body rest before after : List α} (hbody : x ∉ body)
    (h : body ++ x :: rest = before ++ x :: after) :
    before = body ∨ ∃ later, before = body ++ x :: later ∧ rest = later ++ x :: after := by
  obtain ⟨gap, rfl, hgap⟩ | ⟨gap, rfl, hgap⟩ := List.append_eq_append_iff.mp h
  · cases gap with
    | nil => exact .inl (List.append_nil body)
    | cons y later =>
      obtain ⟨rfl, hrest⟩ := List.cons.inj hgap
      exact .inr ⟨later, rfl, hrest⟩
  · cases gap with
    | nil => exact .inl (List.append_nil before).symm
    | cons y later =>
      obtain ⟨rfl, -⟩ := List.cons.inj hgap
      exact absurd (List.mem_append_right before List.mem_cons_self) hbody

theorem EndsOnce.count {part : List Instr} (h : EndsOnce part) : part.count .finish = 1 := by
  obtain ⟨body, hbody, rfl⟩ := h
  rw [List.count_append, List.count_eq_zero_of_not_mem hbody]
  rfl

theorem count_finish_computations {parts : List (List Instr)} {comps : List SeededInput}
    (h : AreComputations parts comps) : comps.length = parts.flatten.count .finish := by
  induction h with
  | nil => rfl
  | cons hpart _ ih =>
    rw [List.flatten_cons, List.count_append, (endsOnce_of_computation? hpart).count, ← ih, List.length_cons,
      Nat.add_comm]

theorem getLast?_computations {parts : List (List Instr)} {comps : List SeededInput} (hne : parts ≠ [])
    (h : AreComputations parts comps) : parts.flatten.getLast? = some .finish := by
  induction h with
  | nil => exact absurd rfl hne
  | @cons part _ parts _ hpart _ ih =>
    rw [List.flatten_cons, List.getLast?_append]
    cases parts with
    | nil =>
      obtain ⟨body, -, rfl⟩ := endsOnce_of_computation? hpart
      exact List.getLast?_concat
    | cons next parts => rw [ih (List.cons_ne_nil next parts), Option.some_or]

end Sys2Proof
end

section
/-! What a well-formed computation shows, and each of several one after another (42_finish_result.md R100, R104,
R106). -/

namespace Sys2Proof.Machine

/-- From every block a well-formed computation leaves the fold of its bytes from its seed, in the DONE state
(42_finish_result.md R100). -/
theorem foldl_apply_computation {cmds : List Instr} {comp : SeededInput} (h : computation? cmds = some comp)
    (bl : Block) : cmds.foldl Block.apply bl = ⟨(Accs.ofLoads comp.1).fold comp.2, [], true⟩ := by
  obtain ⟨loads, data⟩ := comp
  obtain ⟨rest, rfl, hrest⟩ := computation?_some h
  obtain ⟨distinct, body, hbody, rfl, rfl⟩ := afterClear?_some hrest
  rw [List.append_assoc, ← List.cons_append, List.foldl_append, foldl_apply_seed distinct, List.foldl_append,
    foldl_apply_data hbody rfl, Block.pushAll_eq, ← foldAbsorbsTheWords]
  rfl

/-- The run of the words of a well-formed computation, from every block. -/
theorem runAll_computation {cws : List CmdWord} {comp : SeededInput} (h : computation? (cws.map decode) = some comp)
    (bl : Block) :
    runAll (State.facing bl (acceptAll cws)) = .next ⟨⟨(Accs.ofLoads comp.1).fold comp.2, [], true⟩, []⟩ := by
  rw [runAll_acceptAll, foldl_apply_computation h]

/-- The reset block is what CLR leaves, so from there a computation may omit its CLR (42_finish_result.md R106). -/
theorem foldl_apply_reset (cmds : List Instr) (bl : Block) :
    cmds.foldl Block.apply Block.reset = (.clr :: cmds).foldl Block.apply bl := rfl

/-- Settles O45: the run of a computation, with no loads from the zero seed, and from reset as behind a CLR. -/
theorem computationShowsTheChecksum : Obligations.ComputationShowsTheChecksum := by
  refine ⟨fun bl cws loads data h => ⟨_, runAll_computation h bl, rfl, rfl⟩,
    fun bl cws data h => ⟨_, runAll_computation h bl, rfl⟩, fun cws loads data h => ⟨_, runAll_acceptAll _ _, ?_⟩⟩
  have with_clr : computation? (.clr :: cws.map decode) = some (loads, data) := h
  rw [show State.reset.block = Block.reset from rfl, foldl_apply_reset _ Block.reset, foldl_apply_computation with_clr]
  exact ⟨rfl, rfl⟩

/-- Settles O48: the Result read after the first chunk is the seed of the second. -/
theorem chunksCarryForward : Obligations.ChunksCarryForward := by
  refine ⟨fun s d1 d2 h => s.fold_append h d2, fun d1 d2 h => Accs.zero.fold_append h d2, ?_,
    ⟨[1], [0, 0, 0], by decide⟩⟩
  intro bl cws1 cws2 d1 d2 loads t1 hwhole hcomp1 hrun1 hcomp2 hread
  rw [runAll_computation hcomp1 bl] at hrun1
  cases hrun1
  have seed : compute d1 = Accs.ofLoads loads := Option.some.inj hread
  refine ⟨_, runAll_computation hcomp2 _, ?_⟩
  rw [compute, Accs.fold_append _ hwhole, ← compute, seed]
  rfl

/-- Settles O54: the cuts behind the ENDs are the computations, since each has one END, its last command. -/
theorem computationsFollowOneAnother : Obligations.ComputationsFollowOneAnother := by
  refine ⟨fun cmds comps => ?_, fun cmds comps => ?_⟩
  · simp only [map_computation?_iff, computations?_iff]
  · simp only [map_computation?_iff, computationsAfterReset?_iff]

/-- What the run up to an END leaves: the fold of the computation at the place that the ENDs before it count. -/
theorem foldl_apply_computations {parts : List (List Instr)} {comps : List SeededInput}
    (h : AreComputations parts comps) {before after : List Instr} (hend : parts.flatten = before ++ .finish :: after)
    (start : Block) :
    ∃ comp, comps[before.count .finish]? = some comp ∧
      (before ++ [Instr.finish]).foldl Block.apply start = ⟨(Accs.ofLoads comp.1).fold comp.2, [], true⟩ := by
  induction h generalizing before start with
  | nil => simp at hend
  | cons hpart _ ih =>
    obtain ⟨body, hbody, rfl⟩ := endsOnce_of_computation? hpart
    rw [List.flatten_cons, List.append_assoc, List.singleton_append] at hend
    obtain rfl | ⟨later, rfl, hlater⟩ := append_cons_eq_append_cons_cases hbody hend
    · refine ⟨_, ?_, foldl_apply_computation hpart start⟩
      rw [List.count_eq_zero_of_not_mem hbody, List.getElem?_cons_zero]
    · obtain ⟨comp, hcomp, hrun⟩ := ih hlater ((body ++ [Instr.finish]).foldl Block.apply start)
      refine ⟨comp, ?_, ?_⟩
      · rw [List.count_append, List.count_eq_zero_of_not_mem hbody, List.count_cons_self, Nat.zero_add,
          List.getElem?_cons_succ, hcomp]
      · rw [← hrun, ← List.foldl_append]
        simp

/-- From the block `start`, as many computations as ENDs, the last command an END, and after each END the fold of its
own computation in the DONE state. -/
structure ShowsEach (start : Block) (cmds : List Instr) (comps : List SeededInput) : Prop where
  length_eq : comps.length = cmds.count .finish
  last : cmds.getLast? = some .finish
  at_end : ∀ before after, cmds = before ++ .finish :: after →
    ∃ comp, comps[before.count .finish]? = some comp ∧
      (before ++ [Instr.finish]).foldl Block.apply start = ⟨(Accs.ofLoads comp.1).fold comp.2, [], true⟩

theorem showsEach_of_computations? {cmds : List Instr} {comps : List SeededInput} (h : computations? cmds = some comps)
    (start : Block) : ShowsEach start cmds comps := by
  obtain ⟨parts, hne, rfl, hparts⟩ := (computations?_iff cmds comps).mp h
  exact ⟨count_finish_computations hparts, getLast?_computations hne hparts,
    fun _ _ hend => foldl_apply_computations hparts hend start⟩

/-- What a sequence behind a CLR shows it shows from the reset block without that CLR (42_finish_result.md R106). -/
theorem ShowsEach.omit_clr {start : Block} {cmds : List Instr} {comps : List SeededInput}
    (h : ShowsEach start (.clr :: cmds) comps) : ShowsEach Block.reset cmds comps := by
  have same_count (part : List Instr) : (Instr.clr :: part).count .finish = part.count .finish :=
    List.count_cons_of_ne (by decide)
  refine ⟨h.length_eq.trans (same_count cmds), ?_, fun before after hend => ?_⟩
  · cases cmds with
    | nil => exact absurd h.last (by decide)
    | cons i rest => exact h.last
  · have behind_clr := h.at_end (.clr :: before) after (by rw [hend]; rfl)
    rwa [same_count] at behind_clr

theorem showsEach_of_afterReset {cmds : List Instr} {comps : List SeededInput}
    (h : computationsAfterReset? cmds = some comps) : ShowsEach Block.reset cmds comps := by
  obtain hclr | homitted := computations?_of_afterReset h
  · exact showsEach_of_computations? hclr Block.reset
  · exact (showsEach_of_computations? homitted Block.reset).omit_clr

/-- What the ports show after an accepted END. -/
theorem ShowsEach.obs {start : Block} {cws : List CmdWord} {comps : List SeededInput}
    (h : ShowsEach start (cws.map decode) comps) {before after : List CmdWord} {cw : CmdWord}
    (hcws : cws = before ++ cw :: after) (hcw : decode cw = .finish) :
    ∃ t comp, comps[(before.map decode).count .finish]? = some comp ∧
      runAll (State.facing start (acceptAll (before ++ [cw]))) = .next t ∧
      t.block.obs = (true, some ((Accs.ofLoads comp.1).fold comp.2)) := by
  have hend : cws.map decode = before.map decode ++ .finish :: after.map decode := by simp [hcws, hcw]
  obtain ⟨comp, hcomp, hrun⟩ := h.at_end _ _ hend
  refine ⟨_, comp, hcomp, runAll_acceptAll _ _, ?_⟩
  rw [List.map_append, List.map_singleton, hcw, hrun]
  rfl

theorem runAll_reset (bl : Block) (events : List Event) :
    runAll (State.facing bl (.reset :: events)) = runAll (State.facing Block.reset events) := by
  rw [runAll_facing, runAll_facing]
  rfl

/-- Settles O55: from every block the parts run one after another; behind a reset event the run is from the reset block,
where a CLR in front makes no difference. -/
theorem eachComputationShowsItsChecksum : Obligations.EachComputationShowsItsChecksum := by
  refine ⟨fun bl cws comps h => ?_, fun bl cws comps h => ?_⟩
  · have shown := showsEach_of_computations? h bl
    exact ⟨shown.length_eq, shown.last, fun _ _ _ hcws hcw => shown.obs hcws hcw⟩
  · have shown := showsEach_of_afterReset h
    simp only [runAll_reset]
    exact ⟨shown.length_eq, shown.last, fun _ _ _ hcws hcw => shown.obs hcws hcw⟩

end Sys2Proof.Machine
end

section
/-! No command, step or run stops (60_exceptions.md R110). -/

namespace Sys2Proof.Machine

/-- Without an event to come the block waits, which is no error (60_exceptions.md R114); every event is answered. -/
theorem step_answers_next (s : State) : ∃ t, step s = .next t := by
  obtain ⟨bl, inputs⟩ := s
  cases inputs with
  | nil => exact ⟨_, step_nil bl⟩
  | cons e es => exact ⟨_, step_cons bl e es⟩

/-- A run goes on from the state that its first step answers. -/
theorem run_succ_of_step {s t : State} (h : step s = .next t) (n : ℕ) :
    Sys2Proof.core.run (n + 1) s = Sys2Proof.core.run n t := by
  have hcore : Sys2Proof.core.step s = .next t := h
  simp only [Host.Core.run, hcore]

/-- By induction on the number of steps, from every state: the first step answers a state, and the rest of the run
starts there. -/
theorem run_answers_next (n : ℕ) (s : State) : ∃ t, Sys2Proof.core.run n s = .next t := by
  induction n generalizing s with
  | zero => exact ⟨s, rfl⟩
  | succ n ih =>
    obtain ⟨t, hstep⟩ := step_answers_next s
    rw [run_succ_of_step hstep]
    exact ih t

/-- Settles O36: a command answers the state that its effect on the block gives, so every step and every run goes on. -/
theorem nothingEverStops : Obligations.NothingEverStops :=
  ⟨fun i s => ⟨_, exec_eq i s⟩, step_answers_next, run_answers_next⟩

end Sys2Proof.Machine
end

section
/-! The reset event (70_reset_and_hazards.md R125). -/

namespace Sys2Proof.Machine

/-- A step with the reset event to come: the block is the reset block, and the event is taken from the host's list. -/
theorem step_reset (bl : Block) (rest : List Event) : step ⟨bl, .reset :: rest⟩ = .next ⟨Block.reset, rest⟩ :=
  step_cons bl .reset rest

/-- Settles O35: the step and CLR both answer the reset block; the event of an edge with the reset asserted is the reset
event, which is no acceptance. -/
theorem resetEventRestoresTheResetState : Obligations.ResetEventRestoresTheResetState := by
  refine ⟨step_reset, fun bl rest => ?_, fun e cw hrst accepted => ?_⟩
  · have clears : exec .clr ⟨bl, rest⟩ = .next ⟨Block.reset, rest⟩ := exec_eq .clr ⟨bl, rest⟩
    rw [step_reset, clears]
  · rw [Edge.event?_reset hrst] at accepted
    cases accepted

end Sys2Proof.Machine
end

section
/-! The accepted word and its decoding (30_encoding.md R46, R51; 95_test_vectors.md section 2.1). -/

namespace Sys2Proof.Machine

/-- A step with an accepted word to come: the word is taken from the host's list and its command takes effect
(00_scope.md R8). -/
theorem step_accept (bl : Block) (cw : CmdWord) (rest : List Event) :
    step ⟨bl, .accept cw :: rest⟩ = exec (decode cw) ⟨bl, rest⟩ := by
  rw [step_cons, exec_eq]
  rfl

/-- A presented word is accepted next, and its command meets the state in which the word was presented. -/
theorem step_present (s : State) (cw : CmdWord) : step (s.present cw) = exec (decode cw) s :=
  step_accept s.block cw s.inputs

/-- Settles O5: the operation code of each word selects its command, and its operands are the fields of R49. -/
theorem tabulatedWordsDecode : Obligations.TabulatedWordsDecode :=
  ⟨decode_of_opField_clr rfl, decode_of_opField_putb rfl, decode_of_opField_putb rfl, decode_of_opField_putw rfl,
    decode_of_opField_finish rfl, decode_of_opField_ldacc (r := accNumber .a) rfl,
    decode_of_opField_ldacc (r := accNumber .b) rfl, decode_of_opField_ldacc (r := accNumber .c) rfl,
    decode_of_opField_ldacc (r := accNumber .d) rfl, decode_of_opField_clr rfl, decode_of_opField_putb rfl,
    decode_of_opField_putw rfl, decode_of_opField_finish rfl, decode_of_opField_ldacc (r := accNumber .d) rfl⟩

/-- Settles O6: one rule of the step for each thing that can head the host's list. -/
theorem stepRunsTheDecodedCommand : Obligations.StepRunsTheDecodedCommand :=
  ⟨step_accept, step_reset, step_nil⟩

/-- Settles O7: decoding a table word never refuses, so the command it reads is that of the word presented. -/
theorem presentedWordRunsNext : Obligations.PresentedWordRunsNext := by
  intro s nbits w i h
  have decoded : decode (tableWord nbits w) = i := Option.some.inj h
  rw [State.withFetchWord, step_present, decoded]

end Sys2Proof.Machine
end
